-- ==== Sys2Proof/Word.lean ====
section
/-! DEFINITION. The widths of CHLORSND's registers (00_scope.md section 6: u8, u16, u15, u7, u4, s32). A register the
spec calls signed is the same bits, read with `BitVec.toInt`. -/

namespace Sys2Proof

/-- One byte: a bus value, a control byte, an entry, a signed 8-bit field (R81, R87). -/
abbrev Byte := BitVec 8

/-- A 16-bit register, bus address or sub-register number (R61, R84). -/
abbrev Half := BitVec 16

/-- The number of an envelope generator held in a selector register (R44, R45). -/
abbrev EnvgIx := BitVec 4

end Sys2Proof
end

