-- ==== Sys2Proof/Config.lean ====
section
/-! DEFINITION. The implementation parameters that 00_scope.md R10 leaves open, as one plain record. A chip carries its
record in `State.cfg` and no step writes it, so a statement about every state is a statement about every parameter
value (log 4). The default values are in Machine/Maps.lean. -/

namespace Sys2Proof

/-- `STRIDE_COMPARE` (R183, D11): which comparison the stride counter makes. -/
inductive StrideCompare where
  | configured
  | sourceBug
  deriving DecidableEq, Repr

/-- `SUBREG_SRC` (R10, D4): where a multiplexed write takes its sub-register number from. -/
inductive SubregSrc where
  | wptr
  | wdataHigh
  deriving DecidableEq, Repr

/-- What `ACC_WIDTH` (R10, R198, D19, log 12) does with an intermediate that does not fit its width. -/
inductive AccOverflow where
  | wrap
  | saturate
  deriving DecidableEq, Repr

/-- What an envelope sub-register number names (R132). -/
inductive EnvgField where
  | ctrl
  | mult
  | hold
  | stride
  | entry (i : BitVec 7)
  | reserved
  deriving DecidableEq, Repr

/-- What a channel sub-register number names (R147). -/
inductive ChField where
  | ctrl
  | reserved
  | voll
  | volr
  | accmaxLo
  | accmaxHi
  | ampsel
  | coefsel (k : Fin 10)
  | lstartLo
  | lstartHi
  | lendLo
  | lendHi
  deriving DecidableEq, Repr

/-- `ENVG_SUBREG_MAP` (R10, R132, D6, log 13): the field each number outside 128..255 names, row by row. The first row of
a number counts, a number without a row is reserved, several numbers may name one field, and 128..255 stay the
entries. -/
structure EnvgSubregMap where
  rows : List (Half × EnvgField)
  deriving DecidableEq, Repr

/-- `CH_SUBREG_MAP` (R10, R147, D5, log 13): the same for the channel numbers that the source does not fix; 0 (control),
2 (`VOLL`) and 7..16 (`COEFSEL`) stay what they are. -/
structure ChSubregMap where
  rows : List (Half × ChField)
  deriving DecidableEq, Repr

/-- The open parameters of R10. `accWidth` is the number of bits of the biquad's intermediate and delays (log 12).
`expTable` has 256 entries of 8 bits: P1 and P4 of R188 hold by its type (log 5). -/
structure Config where
  peekChBase : Nat
  peekEnvgBase : Nat
  subregSrc : SubregSrc
  envgMap : EnvgSubregMap
  chMap : ChSubregMap
  strideCompare : StrideCompare
  biquadShift : Nat
  ampShift : Nat
  accWidth : Nat
  accOverflow : AccOverflow
  expTable : Vector Byte 256
  deriving DecidableEq, Repr

end Sys2Proof
end

