-- ==== Sys2Proof/Syntax.lean ====
section
/-! DEFINITION. The operations of CHLORSND: one constructor per row of spec/opcode_table.json, the four formats of
30_encoding.md R80 in which their words are written. -/

namespace Sys2Proof

/-- A word in one of the four formats of R80. Only `hop` words come from the host; `ctl`, `sube` and `subc` words are
delivered inside the chip (R83, R84) and can be handed to the model by themselves (log 8). -/
inductive OpWord where
  | hop (w : BitVec 27)
  | ctl (w : BitVec 8)
  | sube (w : BitVec 24)
  | subc (w : BitVec 24)
  deriving DecidableEq, Repr

/-- The 51 rows of spec/opcode_table.json. `poke…`, `peek…`, `tick`, `init`, `destroy` are HOP words (R81), `ctl…` the
bits of a CTL byte (R83), `e…` SUBE words and `c…` SUBC words (R84). -/
inductive Instr where
  | pokeControl (val : Byte)
  | pokeChsel (val : Byte)
  | pokeEnvselLo (val : Byte)
  | pokeEnvselHi (val : Byte)
  | pokeWptrLo (val : Byte)
  | pokeWptrHi (val : Byte)
  | pokeWdataLo (val : Byte)
  | pokeWdataHi (val : Byte)
  | pokeUnmapped (addr : Half) (val : Byte)
  | peekControl
  | peekChctrl (c : Fin 8)
  | peekEnvctrl (g : Fin 16)
  | peekUnmapped (addr : Half)
  | tick
  | init
  | destroy
  | ctlClrEnvsel
  | ctlClrWptr
  | ctlClrWdata
  | ctlRsvd3
  | ctlFwdEnvg
  | ctlFwdChan
  | ctlRsvd6
  | ctlFwdRam
  | eCtrl (val : Byte)
  | eMult (val : Byte)
  | eHold (val : Byte)
  | eStride (val : Byte)
  | eEntry (i : BitVec 7) (val : Byte)
  | eReserved (sub : Half) (val : Byte)
  | cCtrl (val : Byte)
  | cVoll (val : Byte)
  | cVolr (val : Byte)
  | cAccmaxLo (val : Byte)
  | cAccmaxHi (val : Byte)
  | cAmpsel (val : Byte)
  | cCoefsel0 (val : Byte)
  | cCoefsel1 (val : Byte)
  | cCoefsel2 (val : Byte)
  | cCoefsel3 (val : Byte)
  | cCoefsel4 (val : Byte)
  | cCoefsel5 (val : Byte)
  | cCoefsel6 (val : Byte)
  | cCoefsel7 (val : Byte)
  | cCoefsel8 (val : Byte)
  | cCoefsel9 (val : Byte)
  | cLstartLo (val : Byte)
  | cLstartHi (val : Byte)
  | cLendLo (val : Byte)
  | cLendHi (val : Byte)
  | cReserved (sub : Half) (val : Byte)
  deriving DecidableEq, Repr

end Sys2Proof
end

