-- ==== Sys2Proof/Machine/Maps.lean ====
section
/-! DEFINITION. The decided default of every open parameter (00_scope.md R10, 92_eei_decisions.md), what makes a
parameter record legal, and the maps that turn an address or a sub-register number into the thing it names
(20_memory.md R61 to R63, 41_envg_subregisters.md R132, 42_channel_subregisters.md R147). -/

namespace Sys2Proof

/-! ## Defaults -/

/-- The reference amplitude table EXP_REF, row by row as R189 prints it. -/
def Config.expRefRows : List Byte :=
  [1, 1, 1, 1, 1, 1, 1, 1, 1, 1, 1, 1, 1, 1, 1, 1] ++
  [1, 1, 2, 2, 2, 2, 2, 2, 2, 2, 2, 2, 2, 2, 2, 2] ++
  [2, 2, 2, 2, 2, 2, 2, 2, 2, 2, 3, 3, 3, 3, 3, 3] ++
  [3, 3, 3, 3, 3, 3, 3, 3, 3, 3, 4, 4, 4, 4, 4, 4] ++
  [4, 4, 4, 4, 4, 5, 5, 5, 5, 5, 5, 5, 5, 5, 6, 6] ++
  [6, 6, 6, 6, 6, 6, 7, 7, 7, 7, 7, 7, 7, 8, 8, 8] ++
  [8, 8, 9, 9, 9, 9, 9, 9, 10, 10, 10, 10, 11, 11, 11, 11] ++
  [12, 12, 12, 12, 13, 13, 13, 13, 14, 14, 14, 15, 15, 15, 16, 16] ++
  [16, 17, 17, 17, 18, 18, 19, 19, 19, 20, 20, 21, 21, 22, 22, 23] ++
  [23, 24, 24, 25, 25, 26, 26, 27, 27, 28, 29, 29, 30, 31, 31, 32] ++
  [33, 33, 34, 35, 36, 36, 37, 38, 39, 40, 40, 41, 42, 43, 44, 45] ++
  [46, 47, 48, 49, 50, 51, 52, 54, 55, 56, 57, 58, 60, 61, 62, 64] ++
  [65, 67, 68, 70, 71, 73, 74, 76, 77, 79, 81, 83, 84, 86, 88, 90] ++
  [92, 94, 96, 98, 100, 103, 105, 107, 110, 112, 114, 117, 119, 122, 125, 128] ++
  [130, 133, 136, 139, 142, 145, 148, 152, 155, 158, 162, 165, 169, 173, 176, 180] ++
  [184, 188, 192, 197, 201, 205, 210, 214, 219, 224, 229, 234, 239, 244, 250, 255]

/-- EXP_REF as a table of 256 entries (P1 of R188). -/
def Config.expRef : Vector Byte 256 := ⟨⟨Config.expRefRows⟩, by decide +kernel⟩

/-- The default envelope map (R132). -/
def EnvgSubregMap.default : EnvgSubregMap := ⟨[(0, .ctrl), (1, .mult), (2, .hold), (3, .stride)]⟩

/-- The default channel map (R147). -/
def ChSubregMap.default : ChSubregMap :=
  ⟨[(3, .volr), (4, .accmaxLo), (5, .accmaxHi), (6, .ampsel), (17, .lstartLo), (18, .lstartHi), (19, .lendLo),
    (20, .lendHi)]⟩

/-- The defaults of R10, with EXP_REF for the open table (log 4). -/
def Config.default : Config where
  peekChBase := 0x0010
  peekEnvgBase := 0x0020
  subregSrc := .wptr
  envgMap := EnvgSubregMap.default
  chMap := ChSubregMap.default
  strideCompare := .configured
  biquadShift := 8
  ampShift := 15
  accWidth := 32
  accOverflow := .wrap
  expTable := Config.expRef

/-! ## Maps -/

/-- The channel whose control byte PEEK reads at `addr`: `0 <= addr - PEEK_CH_BASE <= 7` (R82, R122). -/
def Config.chWindow (cfg : Config) (addr : Half) : Option (Fin 8) :=
  if h : cfg.peekChBase ≤ addr.toNat ∧ addr.toNat - cfg.peekChBase < 8 then
    some ⟨addr.toNat - cfg.peekChBase, h.2⟩
  else none

/-- The generator whose control byte PEEK reads at `addr`: `0 <= addr - PEEK_ENVG_BASE <= 15` (R82, R123). -/
def Config.envgWindow (cfg : Config) (addr : Half) : Option (Fin 16) :=
  if h : cfg.peekEnvgBase ≤ addr.toNat ∧ addr.toNat - cfg.peekEnvgBase < 16 then
    some ⟨addr.toNat - cfg.peekEnvgBase, h.2⟩
  else none

/-- What the first row of a number names, or `none_` without one. -/
def rowOf {α : Type} (none_ : α) : List (Half × α) → Half → α
  | [], _ => none_
  | (n, f) :: rows, sub => if n = sub then f else rowOf none_ rows sub

/-- What an envelope sub-register number names (R132): 128..255 are the entries, numbered from 0 (R89). -/
def EnvgSubregMap.field (m : EnvgSubregMap) (sub : Half) : EnvgField :=
  if 128 ≤ sub.toNat ∧ sub.toNat ≤ 255 then .entry (BitVec.ofNat 7 (sub.toNat - 128)) else rowOf .reserved m.rows sub

/-- What a channel sub-register number names (R147): 0, 2 and 7..16 are fixed by the source. -/
def ChSubregMap.field (m : ChSubregMap) (sub : Half) : ChField :=
  if sub = 0 then .ctrl
  else if sub = 2 then .voll
  else if h : 7 ≤ sub.toNat ∧ sub.toNat - 7 < 10 then .coefsel ⟨sub.toNat - 7, h.2⟩
  else rowOf .reserved m.rows sub

/-- A number of the map's rows that names the field, if there is one. -/
def EnvgSubregMap.number (m : EnvgSubregMap) (f : EnvgField) : Option Half :=
  (m.rows.find? fun r => decide (m.field r.1 = f)).map Prod.fst

/-- A number of the map's rows that names the field, if there is one. -/
def ChSubregMap.number (m : ChSubregMap) (f : ChField) : Option Half :=
  (m.rows.find? fun r => decide (m.field r.1 = f)).map Prod.fst

/-! ## Legal parameters -/

/-- D3: the windows `{0}`, `[PEEK_CH_BASE, +8)` and `[PEEK_ENVG_BASE, +16)` are disjoint and lie in the 16-bit space. -/
abbrev Config.windowsDisjoint (cfg : Config) : Prop :=
  0 < cfg.peekChBase ∧ 0 < cfg.peekEnvgBase ∧ cfg.peekChBase + 8 ≤ 65536 ∧ cfg.peekEnvgBase + 16 ≤ 65536 ∧
    (cfg.peekChBase + 8 ≤ cfg.peekEnvgBase ∨ cfg.peekEnvgBase + 16 ≤ cfg.peekChBase)

/-- Each element is at most the next. -/
def neverFalls : List Byte → Bool
  | [] => true
  | [_] => true
  | a :: b :: t => decide (a.toNat ≤ b.toNat) && neverFalls (b :: t)

/-- P2 of R188: the amplitude table never falls. -/
abbrev Config.expMonotone (cfg : Config) : Prop := neverFalls cfg.expTable.toList = true

/-- A legal parameter record: what R10's "alternatives" column and R188 allow (log 4, log 5). Every map is legal. -/
abbrev Config.wf (cfg : Config) : Prop :=
  cfg.windowsDisjoint ∧ cfg.expMonotone ∧ cfg.expTable[255] = 255 ∧ 32 ≤ cfg.accWidth ∧
    (cfg.biquadShift = 8 ∨ cfg.biquadShift = 16) ∧
    (cfg.ampShift = 8 ∨ cfg.ampShift = 15 ∨ cfg.ampShift = 16)

end Sys2Proof
end

