-- ==== Sys2Proof/WellFormed.lean ====
section
/-! DEFINITION. Which terms of `Instr` stand for an operation: a default row of the opcode table is selected only when
no more specific row of its format matches (30_encoding.md R90), so its number must be one that names nothing; a
row whose number is a parameter needs a number in the chip's map (R10). Every other operand is in range by its type. -/

namespace Sys2Proof

/-- An operation some word of the chip with parameters `cfg` decodes to (R90, R117, R124, R138, R159). -/
def WellFormed (cfg : Config) : Instr → Bool
  | .pokeUnmapped addr _ => decide (8 ≤ addr.toNat)
  | .peekUnmapped addr => decide (addr ≠ 0 ∧ cfg.chWindow addr = none ∧ cfg.envgWindow addr = none)
  | .eReserved sub _ => decide (cfg.envgMap.field sub = .reserved)
  | .cReserved sub _ => decide (cfg.chMap.field sub = .reserved)
  | .eCtrl _ => (cfg.envgMap.number .ctrl).isSome
  | .eMult _ => (cfg.envgMap.number .mult).isSome
  | .eHold _ => (cfg.envgMap.number .hold).isSome
  | .eStride _ => (cfg.envgMap.number .stride).isSome
  | .cVolr _ => (cfg.chMap.number .volr).isSome
  | .cAccmaxLo _ => (cfg.chMap.number .accmaxLo).isSome
  | .cAccmaxHi _ => (cfg.chMap.number .accmaxHi).isSome
  | .cAmpsel _ => (cfg.chMap.number .ampsel).isSome
  | .cLstartLo _ => (cfg.chMap.number .lstartLo).isSome
  | .cLstartHi _ => (cfg.chMap.number .lstartHi).isSome
  | .cLendLo _ => (cfg.chMap.number .lendLo).isSome
  | .cLendHi _ => (cfg.chMap.number .lendHi).isSome
  | .pokeControl _ | .pokeChsel _ | .pokeEnvselLo _ | .pokeEnvselHi _ | .pokeWptrLo _ | .pokeWptrHi _
  | .pokeWdataLo _ | .pokeWdataHi _ | .peekControl | .peekChctrl _ | .peekEnvctrl _ | .tick | .init | .destroy
  | .ctlClrEnvsel | .ctlClrWptr | .ctlClrWdata | .ctlRsvd3 | .ctlFwdEnvg | .ctlFwdChan | .ctlRsvd6 | .ctlFwdRam
  | .eEntry _ _ | .cCtrl _ | .cVoll _
  | .cCoefsel0 _ | .cCoefsel1 _ | .cCoefsel2 _ | .cCoefsel3 _ | .cCoefsel4 _
  | .cCoefsel5 _ | .cCoefsel6 _ | .cCoefsel7 _ | .cCoefsel8 _ | .cCoefsel9 _ => true

end Sys2Proof
end

