-- ==== Sys2Proof/Decode.lean ====
section
/-! DEFINITION. The decoder of 30_encoding.md R90, total on the words of all four formats, and after it the encoder,
written from the formats R81, R83 and R84. -/

namespace Sys2Proof

/-! ## Decoder -/

/-- Why a word is no operation. -/
inductive DecodeError where
  /-- A HOP word of kind 5, 6 or 7 (R91, U16). -/
  | notAnOperation (kind : BitVec 3)
  deriving DecidableEq, Repr

/-- `decode_host` of R90, kind 0. -/
def decodePoke (addr : Half) (val : Byte) : Instr :=
  if addr = 0x0000 then .pokeControl val
  else if addr = 0x0001 then .pokeChsel val
  else if addr = 0x0002 then .pokeEnvselLo val
  else if addr = 0x0003 then .pokeEnvselHi val
  else if addr = 0x0004 then .pokeWptrLo val
  else if addr = 0x0005 then .pokeWptrHi val
  else if addr = 0x0006 then .pokeWdataLo val
  else if addr = 0x0007 then .pokeWdataHi val
  else .pokeUnmapped addr val

/-- `decode_host` of R90, kind 1. -/
def decodePeek (cfg : Config) (addr : Half) : Instr :=
  if addr = 0x0000 then .peekControl
  else
    match cfg.chWindow addr, cfg.envgWindow addr with
    | some c, _ => .peekChctrl c
    | none, some g => .peekEnvctrl g
    | none, none => .peekUnmapped addr

/-- `decode_host` of R90: the fields of a HOP word are R81's. -/
def decodeHop (cfg : Config) (w : BitVec 27) : Except DecodeError Instr :=
  let kind := w.extractLsb' 24 3
  let addr := w.extractLsb' 8 16
  let val := w.extractLsb' 0 8
  if kind = 0 then .ok (decodePoke addr val)
  else if kind = 1 then .ok (decodePeek cfg addr)
  else if kind = 2 then .ok .tick
  else if kind = 3 then .ok .init
  else if kind = 4 then .ok .destroy
  else .error (.notAnOperation kind)

/-- `decode_ctl` of R90: every set bit is one action, in ascending bit order (R83, R102). Bits 3 and 6 are rows of the
table too, without an action (R109). -/
def decodeCtl (b : Byte) : List Instr :=
  (if b.getLsbD 0 then [.ctlClrEnvsel] else []) ++ (if b.getLsbD 1 then [.ctlClrWptr] else []) ++
  (if b.getLsbD 2 then [.ctlClrWdata] else []) ++ (if b.getLsbD 3 then [.ctlRsvd3] else []) ++
  (if b.getLsbD 4 then [.ctlFwdEnvg] else []) ++ (if b.getLsbD 5 then [.ctlFwdChan] else []) ++
  (if b.getLsbD 6 then [.ctlRsvd6] else []) ++ (if b.getLsbD 7 then [.ctlFwdRam] else [])

/-- `decode_sube` of R90 on the fields of R84. -/
def decodeSube (cfg : Config) (sub : Half) (val : Byte) : Instr :=
  match cfg.envgMap.field sub with
  | .ctrl => .eCtrl val
  | .mult => .eMult val
  | .hold => .eHold val
  | .stride => .eStride val
  | .entry i => .eEntry i val
  | .reserved => .eReserved sub val

/-- The ten rows C.COEFSEL0 to C.COEFSEL9 (R154). -/
def coefselInstr (k : Fin 10) (val : Byte) : Instr :=
  match k with
  | 0 => .cCoefsel0 val
  | 1 => .cCoefsel1 val
  | 2 => .cCoefsel2 val
  | 3 => .cCoefsel3 val
  | 4 => .cCoefsel4 val
  | 5 => .cCoefsel5 val
  | 6 => .cCoefsel6 val
  | 7 => .cCoefsel7 val
  | 8 => .cCoefsel8 val
  | 9 => .cCoefsel9 val

/-- `decode_subc` of R90 on the fields of R84. -/
def decodeSubc (cfg : Config) (sub : Half) (val : Byte) : Instr :=
  match cfg.chMap.field sub with
  | .ctrl => .cCtrl val
  | .reserved => .cReserved sub val
  | .voll => .cVoll val
  | .volr => .cVolr val
  | .accmaxLo => .cAccmaxLo val
  | .accmaxHi => .cAccmaxHi val
  | .ampsel => .cAmpsel val
  | .coefsel k => coefselInstr k val
  | .lstartLo => .cLstartLo val
  | .lstartHi => .cLstartHi val
  | .lendLo => .cLendLo val
  | .lendHi => .cLendHi val

/-- The operations a word stands for, in the order they are performed: one, but for a CTL byte, which stands for one per
set bit (R80, R90). -/
def decode (cfg : Config) : OpWord → Except DecodeError (List Instr)
  | .hop w => (decodeHop cfg w).map ([·])
  | .ctl b => .ok (decodeCtl b)
  | .sube w => .ok [decodeSube cfg (w.extractLsb' 8 16) (w.extractLsb' 0 8)]
  | .subc w => .ok [decodeSubc cfg (w.extractLsb' 8 16) (w.extractLsb' 0 8)]

/-! ## Encoder -/

/-- A HOP word from its fields (R81). -/
def hopWord (kind : BitVec 3) (addr : Half) (val : Byte) : OpWord := .hop (kind ++ addr ++ val)

/-- A SUBE or SUBC word's bits from its fields (R84). -/
def subWord (sub : Half) (val : Byte) : BitVec 24 := sub ++ val

/-- The word of an operation in its format; ignored fields are written 0 (R81, R83, R84). A number that is a parameter is
taken from the chip's map; an operation without one there is not well formed. -/
def encode (cfg : Config) : Instr → OpWord
  | .pokeControl v => hopWord 0 0x0000 v
  | .pokeChsel v => hopWord 0 0x0001 v
  | .pokeEnvselLo v => hopWord 0 0x0002 v
  | .pokeEnvselHi v => hopWord 0 0x0003 v
  | .pokeWptrLo v => hopWord 0 0x0004 v
  | .pokeWptrHi v => hopWord 0 0x0005 v
  | .pokeWdataLo v => hopWord 0 0x0006 v
  | .pokeWdataHi v => hopWord 0 0x0007 v
  | .pokeUnmapped a v => hopWord 0 a v
  | .peekControl => hopWord 1 0x0000 0
  | .peekChctrl c => hopWord 1 (BitVec.ofNat 16 (cfg.peekChBase + c.val)) 0
  | .peekEnvctrl g => hopWord 1 (BitVec.ofNat 16 (cfg.peekEnvgBase + g.val)) 0
  | .peekUnmapped a => hopWord 1 a 0
  | .tick => hopWord 2 0 0
  | .init => hopWord 3 0 0
  | .destroy => hopWord 4 0 0
  | .ctlClrEnvsel => .ctl 0x01
  | .ctlClrWptr => .ctl 0x02
  | .ctlClrWdata => .ctl 0x04
  | .ctlRsvd3 => .ctl 0x08
  | .ctlFwdEnvg => .ctl 0x10
  | .ctlFwdChan => .ctl 0x20
  | .ctlRsvd6 => .ctl 0x40
  | .ctlFwdRam => .ctl 0x80
  | .eCtrl v => .sube (subWord ((cfg.envgMap.number .ctrl).getD 0) v)
  | .eMult v => .sube (subWord ((cfg.envgMap.number .mult).getD 0) v)
  | .eHold v => .sube (subWord ((cfg.envgMap.number .hold).getD 0) v)
  | .eStride v => .sube (subWord ((cfg.envgMap.number .stride).getD 0) v)
  | .eEntry i v => .sube (subWord (BitVec.ofNat 16 (128 + i.toNat)) v)
  | .eReserved s v => .sube (subWord s v)
  | .cCtrl v => .subc (subWord 0 v)
  | .cVoll v => .subc (subWord 2 v)
  | .cVolr v => .subc (subWord ((cfg.chMap.number .volr).getD 0) v)
  | .cAccmaxLo v => .subc (subWord ((cfg.chMap.number .accmaxLo).getD 0) v)
  | .cAccmaxHi v => .subc (subWord ((cfg.chMap.number .accmaxHi).getD 0) v)
  | .cAmpsel v => .subc (subWord ((cfg.chMap.number .ampsel).getD 0) v)
  | .cCoefsel0 v => .subc (subWord 7 v)
  | .cCoefsel1 v => .subc (subWord 8 v)
  | .cCoefsel2 v => .subc (subWord 9 v)
  | .cCoefsel3 v => .subc (subWord 10 v)
  | .cCoefsel4 v => .subc (subWord 11 v)
  | .cCoefsel5 v => .subc (subWord 12 v)
  | .cCoefsel6 v => .subc (subWord 13 v)
  | .cCoefsel7 v => .subc (subWord 14 v)
  | .cCoefsel8 v => .subc (subWord 15 v)
  | .cCoefsel9 v => .subc (subWord 16 v)
  | .cLstartLo v => .subc (subWord ((cfg.chMap.number .lstartLo).getD 0) v)
  | .cLstartHi v => .subc (subWord ((cfg.chMap.number .lstartHi).getD 0) v)
  | .cLendLo v => .subc (subWord ((cfg.chMap.number .lendLo).getD 0) v)
  | .cLendHi v => .subc (subWord ((cfg.chMap.number .lendHi).getD 0) v)
  | .cReserved s v => .subc (subWord s v)

/-! ## Words numbered as spec/opcode_table.json numbers them -/

/-- DESIGN CHOICE (log 6). A bare 24-bit word does not say which multiplexer it is meant for. It is read as a channel
word where only the channel map names its sub-register number, and as an envelope word otherwise. -/
def readAsChannelWord (cfg : Config) (sub : Half) : Bool :=
  decide (cfg.envgMap.field sub = .reserved ∧ cfg.chMap.field sub ≠ .reserved)

/-- The word of the table whose `nbits` bits are `w`: 8 bits are a CTL byte, 24 a SUBE or SUBC word, 27 to 32 a HOP word
(R80), whose bits above 26 are 0. -/
def tableWord (cfg : Config) (nbits w : Nat) : Option OpWord :=
  if nbits = 8 then
    if w < 2 ^ 8 then some (.ctl (BitVec.ofNat 8 w)) else none
  else if nbits = 24 then
    if w < 2 ^ 24 then
      some (if readAsChannelWord cfg (BitVec.ofNat 16 (w / 2 ^ 8)) then .subc (BitVec.ofNat 24 w)
        else .sube (BitVec.ofNat 24 w))
    else none
  else if 27 ≤ nbits ∧ nbits ≤ 32 then
    if w < 2 ^ 27 then some (.hop (BitVec.ofNat 27 w)) else none
  else none

/-- The operation the decoder reads from a word of the table, under the default parameters; of a CTL byte with several
bits set, the one performed first (log 7). -/
def decodeTableWord (nbits w : Nat) : Option Instr :=
  match tableWord Config.default nbits w with
  | none => none
  | some x =>
    match decode Config.default x with
    | .ok is => is.head?
    | .error _ => none

end Sys2Proof
end

