-- ==== Sys2Proof/Machine/State.lean ====
section
/-! DEFINITION. The state of the chip, exactly what 10_state.md R20 lists, and beside it what a run needs: whether the
chip may be used (R271, R275), its fixed parameters (R10), the words the host has still to issue and what it has seen
(R7, R13). Plain data throughout. -/

namespace Sys2Proof.Machine

/-- A byte memory: (address, byte) cells in one canonical form (`Memory.wf` in Machine/Ops.lean, log 11). -/
abbrev Memory := List Host.Cell

/-- One envelope generator (R30 to R38). `ent` is the table `ENT[g]`, addresses 0..127. `mult` is signed. -/
structure Envg where
  ectrl : Byte
  mult : Byte
  hold : Byte
  stride : Byte
  ent : Memory
  ce : BitVec 7
  cs : Byte
  sq : Bool
  deriving DecidableEq, Repr

/-- The five coefficients `[a1, a2, b0, b1, b2]` of a biquad stage, each signed (R49, R196). -/
structure Coefs where
  a1 : BitVec 16
  a2 : BitVec 16
  b0 : BitVec 16
  b1 : BitVec 16
  b2 : BitVec 16
  deriving DecidableEq, Repr

/-- A two-sample delay line; `d0` is index 0, the newer (R50). Each sample is a signed number of `ACC_WIDTH` bits, 32 by
default (R198); that it lies in that range is part of `State.Inv`. -/
structure DelayLine where
  d0 : Int
  d1 : Int
  deriving DecidableEq, Repr

/-- One biquad stage: its coefficients and a delay line for each side (R49, R50). -/
structure Stage where
  coef : Coefs
  dl : DelayLine
  dr : DelayLine
  deriving DecidableEq, Repr

/-- One channel (R40 to R50). `voll` and `volr` are signed. -/
structure Channel where
  cctrl : Byte
  voll : Byte
  volr : Byte
  accmax : Half
  ampsel : EnvgIx
  coefsel : Vector EnvgIx 10
  lstart : Half
  lend : Half
  acc : Half
  rptr : BitVec 15
  stage0 : Stage
  stage1 : Stage
  deriving DecidableEq, Repr

/-- The whole state of the chip (R20). -/
structure Chip where
  control : Byte
  chsel : Byte
  envsel : Half
  wptr : Half
  wdata : Half
  ram : Memory
  envgs : Vector Envg 16
  channels : Vector Channel 8
  deriving DecidableEq, Repr

/-- Whether an operation has a meaning: before the first INIT and after DESTROY only INIT has one (R271, R275, D23). -/
inductive Life where
  | uninitialised
  | ready
  | destroyed
  deriving DecidableEq, Repr

/-- What leaves the chip (R13): the byte a PEEK returns, or the frame a TICK returns, left sample first, two
mathematical integers (R66, D25, log 9). -/
inductive Observation where
  | peeked (v : Byte)
  | frame (l r : Int)
  deriving DecidableEq, Repr

/-- The two sides of a frame (00_scope.md section 7). -/
inductive Side where
  | left
  | right
  deriving DecidableEq, Repr

/-- A machine state: the chip, whether it may be used, its parameters (log 4), the words still to be issued, first one
first (log 1), and what the host has observed, oldest first (log 9). -/
structure State where
  chip : Chip
  life : Life
  cfg : Config
  pending : List OpWord
  observed : List Observation
  deriving DecidableEq, Repr

/-- Why a step ends in a fault: it has no constructor, because "No operation of the chip raises an exception, returns an
error, or fails" (R250). -/
inductive Fault where
  deriving DecidableEq, Repr

/-- Why a step has no meaning. -/
inductive Refusal where
  /-- Raised by an arm of `exec` for an instruction that has no meaning yet; no arm is left that raises it. Safe. -/
  | notModelled (mnemonic : String)
  /-- Raised by `step` for a HOP word of kind 5, 6 or 7, which is not an operation of the chip (R91, U16). Safe. -/
  | notAnOperation (kind : BitVec 3)
  /-- Raised by every operation but INIT on a chip that was never initialised (R271, D23, U5). Safe. -/
  | notInitialised
  /-- Raised by every operation but INIT after DESTROY (R275, D23, U5). Safe. -/
  | afterDestroy
  deriving DecidableEq, Repr

/-- A generator after INIT (R53). -/
def Envg.zero : Envg := ⟨0, 0, 0, 0, [], 0, 0, false⟩

/-- A biquad stage after INIT (R53). -/
def Stage.zero : Stage := ⟨⟨0, 0, 0, 0, 0⟩, ⟨0, 0⟩, ⟨0, 0⟩⟩

/-- A channel after INIT (R53). -/
def Channel.zero : Channel :=
  ⟨0, 0, 0, 0, 0, Vector.replicate 10 0, 0, 0, 0, 0, Stage.zero, Stage.zero⟩

/-- The chip after INIT: "zero all chip state" (R53, R270). -/
def Chip.zero : Chip :=
  ⟨0, 0, 0, 0, 0, [], Vector.replicate 16 Envg.zero, Vector.replicate 8 Channel.zero⟩

/-- The machine right after reset. INIT is the chip's only reset (R270), so this is the state it leaves: the chip all
zero and ready (log 2), with the default parameters (log 4), nothing issued and nothing observed. -/
def State.reset : State := ⟨Chip.zero, .ready, Config.default, [], []⟩

end Sys2Proof.Machine
end

