-- ==== Sys2Proof/Machine/Flags.lean ====
section
/-! DEFINITION. The bits of the three control bytes (10_state.md R23, R31, R41). The chip has no condition codes and no
arithmetic flags (R51): these trigger and gate bits, and `SQ`, are all its flags. -/

namespace Sys2Proof.Machine

/-! ## CONTROL (R23, R83) -/

/-- Bit 0, `CLR_ENVSEL`. -/
def ctlClrEnvselBit (v : Byte) : Bool := v.getLsbD 0
/-- Bit 1, `CLR_WPTR`. -/
def ctlClrWptrBit (v : Byte) : Bool := v.getLsbD 1
/-- Bit 2, `CLR_WDATA`. -/
def ctlClrWdataBit (v : Byte) : Bool := v.getLsbD 2
/-- Bit 3, reserved. -/
def ctlRsvd3Bit (v : Byte) : Bool := v.getLsbD 3
/-- Bit 4, `FWD_ENVG`. -/
def ctlFwdEnvgBit (v : Byte) : Bool := v.getLsbD 4
/-- Bit 5, `FWD_CHAN`. -/
def ctlFwdChanBit (v : Byte) : Bool := v.getLsbD 5
/-- Bit 6, reserved. -/
def ctlRsvd6Bit (v : Byte) : Bool := v.getLsbD 6
/-- Bit 7, `FWD_RAM`. -/
def ctlFwdRamBit (v : Byte) : Bool := v.getLsbD 7

/-! ## ECTRL (R31) -/

/-- Bit 0, `KEYRESET` of a generator. -/
def envgKeyReset (v : Byte) : Bool := v.getLsbD 0
/-- Bit 1, `KEYON`. -/
def envgKeyOn (v : Byte) : Bool := v.getLsbD 1
/-- R182: bit 0 off, the other seven bits unchanged. -/
def dropKeyReset (v : Byte) : Byte := v &&& 0xFE

/-! ## CCTRL (R41) -/

/-- Bit 0, `KEYRESET` of a channel. -/
def chKeyReset (v : Byte) : Bool := v.getLsbD 0
/-- Bit 1, `CLR_ACCMAX`. -/
def chClrAccmax (v : Byte) : Bool := v.getLsbD 1
/-- Bit 2, `CLR_LSTART`. -/
def chClrLstart (v : Byte) : Bool := v.getLsbD 2
/-- Bit 3, `CLR_LEND`. -/
def chClrLend (v : Byte) : Bool := v.getLsbD 3

end Sys2Proof.Machine
end

