-- ==== Sys2Proof/Machine/Operands.lean ====
section
/-! DEFINITION. Operand assembly (30_encoding.md R86 to R89) and the arithmetic of the data path (00_scope.md section 6,
R11, R12): products and sums are exact integers, narrowed only where a rule says so. -/

namespace Sys2Proof.Machine

/-- R86, a write to a low half: `X <- X | zext_16(v)`. -/
def orLow (x : Half) (v : Byte) : Half := x ||| v.setWidth 16

/-- R86, a write to a high half: `X <- X | (zext_16(v) << 8)`. -/
def orHigh (x : Half) (v : Byte) : Half := x ||| (v.setWidth 16 <<< 8)

/-- R88: `val mod 16`. -/
def selectorOf (v : Byte) : EnvgIx := v.setWidth 4

/-- R89: `mod 32768`, the sample RAM address of a 16-bit value. -/
def ramAddress (x : Half) : BitVec 15 := x.setWidth 15

/-- R84: `WDATA[7:0]`, the byte a forward delivers. -/
def stagedByte (c : Chip) : Byte := c.wdata.setWidth 8

/-- The sub-register number a forward delivers: `WPTR[15:0]` (R84, D4), or, under the alternative of `SUBREG_SRC`, the
high byte of `WDATA` (log 14). -/
def stagedSub (cfg : Config) (c : Chip) : Half :=
  match cfg.subregSrc with
  | .wptr => c.wptr
  | .wdataHigh => c.wdata >>> 8

/-- R11: `a >> k` is `floor(a / 2^k)`, for negative `a` too. -/
def floorShift (a : Int) (k : Nat) : Int := a / ((2 ^ k : Nat) : Int)

/-- `clamp(v, lo, hi)` (00_scope.md section 6). -/
def clamp (v lo hi : Int) : Int := if v < lo then lo else if hi < v then hi else v

/-- R198: a signed number brought into `width` bits. `wrap` at 32 bits is `wrap32` (D19, log 12). -/
def narrow (p : AccOverflow) (width : Nat) (v : Int) : Int :=
  match p with
  | .wrap => v.bmod (2 ^ width)
  | .saturate => clamp v (-(2 ^ (width - 1))) (2 ^ (width - 1) - 1)

end Sys2Proof.Machine
end

