-- ==== Sys2Proof/Machine/Ops.lean ====
section
/-! DEFINITION. The operations the meanings share: byte memories, the updates of single fields, the masked broadcast of
the two multiplexers, and the one place where an operation is given a next state or refused. The chip takes no exception
and returns from none (60_exceptions.md R250, R254, R255), so there is no entry or return operation. -/

namespace Sys2Proof.Machine

/-! ## Byte memories -/

/-- What an address that no cell lists reads as: 0, the content INIT gives (R53, log 11). -/
def Memory.unlisted : Byte := 0

/-- `MemRead(space, addr, 1)` (00_scope.md section 6). -/
def Memory.read : Memory → Nat → Byte
  | [], _ => Memory.unlisted
  | (k, v) :: m, a => if k = a then v else Memory.read m a

/-- `MemWrite(space, addr, 1, v)`, keeping the canonical form: writing the value an unlisted address reads as removes
the cell. -/
def Memory.write : Memory → Nat → Byte → Memory
  | [], a, v => if v = Memory.unlisted then [] else [(a, v)]
  | (k, w) :: m, a, v =>
    if a < k then if v = Memory.unlisted then (k, w) :: m else (a, v) :: (k, w) :: m
    else if a = k then if v = Memory.unlisted then m else (a, v) :: m
    else (k, w) :: Memory.write m a v

/-- Every address of the cells is at least `lo` and below `size`, they rise strictly, and no cell says what an unlisted
address reads as. -/
def Memory.wfFrom (size : Nat) : Nat → Memory → Bool
  | _, [] => true
  | lo, (k, v) :: m => decide (lo ≤ k ∧ k < size ∧ v ≠ Memory.unlisted) && Memory.wfFrom size (k + 1) m

/-- The canonical form of a memory of `size` bytes (log 11). -/
def Memory.wf (size : Nat) (m : Memory) : Bool := Memory.wfFrom size 0 m

/-! ## Single fields -/

/-- `CONTROL <- v`. -/
def Chip.setControl (v : Byte) (c : Chip) : Chip := { c with control := v }
/-- `CHSEL <- v`. -/
def Chip.setChsel (v : Byte) (c : Chip) : Chip := { c with chsel := v }
/-- `ENVSEL <- v`. -/
def Chip.setEnvsel (v : Half) (c : Chip) : Chip := { c with envsel := v }
/-- `WPTR <- v`. -/
def Chip.setWptr (v : Half) (c : Chip) : Chip := { c with wptr := v }
/-- `WDATA <- v`. -/
def Chip.setWdata (v : Half) (c : Chip) : Chip := { c with wdata := v }
/-- `RAM` replaced. -/
def Chip.setRam (m : Memory) (c : Chip) : Chip := { c with ram := m }
/-- The envelope-generator file replaced. -/
def Chip.setEnvgs (v : Vector Envg 16) (c : Chip) : Chip := { c with envgs := v }
/-- The channel file replaced. -/
def Chip.setChannels (v : Vector Channel 8) (c : Chip) : Chip := { c with channels := v }

/-- The chip replaced. -/
def State.withChip (s : State) (c : Chip) : State := { s with chip := c }
/-- The life replaced. -/
def State.withLife (s : State) (l : Life) : State := { s with life := l }
/-- The words still to be issued replaced. -/
def State.withPending (s : State) (p : List OpWord) : State := { s with pending := p }
/-- One more observation, the newest last (R13). -/
def State.observe (s : State) (o : Observation) : State := { s with observed := s.observed ++ [o] }

/-! ## Files of entities -/

/-- `f` on every entity. -/
def mapAll {α β : Type} {n : Nat} (f : α → β) (v : Vector α n) : Vector β n :=
  Vector.ofFn fun i => f v[i]

/-- `f` on every entity whose bit of the mask is 1, the others unchanged (R130, R145). The order of the visits cannot be
observed, since each touches its own entity only (log 17). -/
def mapSelected {α : Type} {n : Nat} (mask : BitVec n) (f : α → α) (v : Vector α n) : Vector α n :=
  Vector.ofFn fun i => if mask.getLsbD i.val then f v[i] else v[i]

/-- The envelope multiplexer: `f` on every generator that `ENVSEL` selects (R130). -/
def Chip.broadcastEnvg (f : Envg → Envg) (c : Chip) : Chip := c.setEnvgs (mapSelected c.envsel f c.envgs)

/-- The channel multiplexer: `f` on every channel that `CHSEL` selects (R145). -/
def Chip.broadcastCh (f : Channel → Channel) (c : Chip) : Chip := c.setChannels (mapSelected c.chsel f c.channels)

/-- The generator a selector points at. -/
def selected (envgs : Vector Envg 16) (sel : EnvgIx) : Envg := envgs[sel.toNat]'sel.isLt

/-! ## Operations as a whole -/

/-- An operation other than INIT: it has a meaning on a ready chip only (R271, R275, D23). -/
def State.whenReady (s next : State) : Host.Outcome State Fault Refusal :=
  match s.life with
  | .ready => .next next
  | .uninitialised => .refused .notInitialised
  | .destroyed => .refused .afterDestroy

/-- An operation that returns nothing: the chip changes by `f`. -/
def State.act (f : Chip → Chip) (s : State) : Host.Outcome State Fault Refusal :=
  s.whenReady (s.withChip (f s.chip))

/-- A PEEK: a byte is returned and the chip is unchanged (R120, R125). -/
def State.answer (v : Byte) (s : State) : Host.Outcome State Fault Refusal :=
  s.whenReady (s.observe (.peeked v))

end Sys2Proof.Machine
end

