-- ==== Sys2Proof/Machine/Bus.lean ====
section
/-! DEFINITION. The register bus without the control byte: the select and staging registers (40_bus_registers.md R110
to R117) and PEEK (R120 to R125). -/

namespace Sys2Proof.Machine

/-- POKE.CHSEL (R110): all eight bits are replaced. -/
def execPokeChsel (val : Byte) (s : State) : Host.Outcome State Fault Refusal :=
  s.act (Chip.setChsel val)

/-- POKE.ENVSEL_LO (R111). -/
def execPokeEnvselLo (val : Byte) (s : State) : Host.Outcome State Fault Refusal :=
  s.act fun c => c.setEnvsel (orLow c.envsel val)

/-- POKE.ENVSEL_HI (R112). -/
def execPokeEnvselHi (val : Byte) (s : State) : Host.Outcome State Fault Refusal :=
  s.act fun c => c.setEnvsel (orHigh c.envsel val)

/-- POKE.WPTR_LO (R113). -/
def execPokeWptrLo (val : Byte) (s : State) : Host.Outcome State Fault Refusal :=
  s.act fun c => c.setWptr (orLow c.wptr val)

/-- POKE.WPTR_HI (R114). -/
def execPokeWptrHi (val : Byte) (s : State) : Host.Outcome State Fault Refusal :=
  s.act fun c => c.setWptr (orHigh c.wptr val)

/-- POKE.WDATA_LO (R115). -/
def execPokeWdataLo (val : Byte) (s : State) : Host.Outcome State Fault Refusal :=
  s.act fun c => c.setWdata (orLow c.wdata val)

/-- POKE.WDATA_HI (R116). -/
def execPokeWdataHi (val : Byte) (s : State) : Host.Outcome State Fault Refusal :=
  s.act fun c => c.setWdata (orHigh c.wdata val)

/-- POKE.UNMAPPED (R117): the state is unchanged. -/
def execPokeUnmapped (_addr : Half) (_val : Byte) (s : State) : Host.Outcome State Fault Refusal :=
  s.act id

/-- PEEK.CONTROL (R121). -/
def execPeekControl (s : State) : Host.Outcome State Fault Refusal :=
  s.answer s.chip.control

/-- PEEK.CHCTRL (R122): `CCTRL[c]`. -/
def execPeekChctrl (c : Fin 8) (s : State) : Host.Outcome State Fault Refusal :=
  s.answer s.chip.channels[c].cctrl

/-- PEEK.ENVCTRL (R123): `ECTRL[g]`. -/
def execPeekEnvctrl (g : Fin 16) (s : State) : Host.Outcome State Fault Refusal :=
  s.answer s.chip.envgs[g].ectrl

/-- PEEK.UNMAPPED (R124): the sentinel `0xFF`. -/
def execPeekUnmapped (_addr : Half) (s : State) : Host.Outcome State Fault Refusal :=
  s.answer 0xFF

end Sys2Proof.Machine
end

