-- ==== Sys2Proof/Machine/ChanRegs.lean ====
section
/-! DEFINITION. The channel multiplexer and the channel sub-registers (42_channel_subregisters.md R145 to R160). A SUBC
word goes to every channel that `CHSEL` selects (R84). -/

namespace Sys2Proof.Machine

/-- R148: the byte is stored, then its bits 1, 2, 3 clear `ACCMAX`, `LSTART`, `LEND`; `ACC` and `RPTR` are not touched. -/
def Channel.writeCtrl (v : Byte) (h : Channel) : Channel :=
  { h with
    cctrl := v
    accmax := if chClrAccmax v then 0 else h.accmax
    lstart := if chClrLstart v then 0 else h.lstart
    lend := if chClrLend v then 0 else h.lend }

/-- R149: `VOLL[c] <- sext_8(v)`, the same eight bits in a signed register. -/
def Channel.writeVoll (v : Byte) (h : Channel) : Channel := { h with voll := v }
/-- R150: `VOLR[c] <- sext_8(v)`. -/
def Channel.writeVolr (v : Byte) (h : Channel) : Channel := { h with volr := v }
/-- R151. -/
def Channel.writeAccmaxLo (v : Byte) (h : Channel) : Channel := { h with accmax := orLow h.accmax v }
/-- R152. -/
def Channel.writeAccmaxHi (v : Byte) (h : Channel) : Channel := { h with accmax := orHigh h.accmax v }
/-- R153: `AMPSEL[c] <- v mod 16`. -/
def Channel.writeAmpsel (v : Byte) (h : Channel) : Channel := { h with ampsel := selectorOf v }
/-- R154: `COEFSEL[c][k] <- v mod 16`. -/
def Channel.writeCoefsel (k : Fin 10) (v : Byte) (h : Channel) : Channel :=
  { h with coefsel := h.coefsel.set k (selectorOf v) }
/-- R155. -/
def Channel.writeLstartLo (v : Byte) (h : Channel) : Channel := { h with lstart := orLow h.lstart v }
/-- R156. -/
def Channel.writeLstartHi (v : Byte) (h : Channel) : Channel := { h with lstart := orHigh h.lstart v }
/-- R157. -/
def Channel.writeLendLo (v : Byte) (h : Channel) : Channel := { h with lend := orLow h.lend v }
/-- R158. -/
def Channel.writeLendHi (v : Byte) (h : Channel) : Channel := { h with lend := orHigh h.lend v }

/-- `write_channel_subreg` (R146), by the field the number names. -/
def Channel.writeField (f : ChField) (v : Byte) : Channel → Channel :=
  match f with
  | .ctrl => Channel.writeCtrl v
  | .reserved => id
  | .voll => Channel.writeVoll v
  | .volr => Channel.writeVolr v
  | .accmaxLo => Channel.writeAccmaxLo v
  | .accmaxHi => Channel.writeAccmaxHi v
  | .ampsel => Channel.writeAmpsel v
  | .coefsel k => Channel.writeCoefsel k v
  | .lstartLo => Channel.writeLstartLo v
  | .lstartHi => Channel.writeLstartHi v
  | .lendLo => Channel.writeLendLo v
  | .lendHi => Channel.writeLendHi v

/-- `poke_channel(sub, v)` (R145). -/
def Chip.pokeChannel (cfg : Config) (sub : Half) (v : Byte) (c : Chip) : Chip :=
  c.broadcastCh (Channel.writeField (cfg.chMap.field sub) v)

/-- C.CTRL (R148). -/
def execCCtrl (val : Byte) (s : State) : Host.Outcome State Fault Refusal :=
  s.act (Chip.broadcastCh (Channel.writeCtrl val))

/-- C.VOLL (R149). -/
def execCVoll (val : Byte) (s : State) : Host.Outcome State Fault Refusal :=
  s.act (Chip.broadcastCh (Channel.writeVoll val))

/-- C.VOLR (R150). -/
def execCVolr (val : Byte) (s : State) : Host.Outcome State Fault Refusal :=
  s.act (Chip.broadcastCh (Channel.writeVolr val))

/-- C.ACCMAX_LO (R151). -/
def execCAccmaxLo (val : Byte) (s : State) : Host.Outcome State Fault Refusal :=
  s.act (Chip.broadcastCh (Channel.writeAccmaxLo val))

/-- C.ACCMAX_HI (R152). -/
def execCAccmaxHi (val : Byte) (s : State) : Host.Outcome State Fault Refusal :=
  s.act (Chip.broadcastCh (Channel.writeAccmaxHi val))

/-- C.AMPSEL (R153). -/
def execCAmpsel (val : Byte) (s : State) : Host.Outcome State Fault Refusal :=
  s.act (Chip.broadcastCh (Channel.writeAmpsel val))

/-- C.COEFSEL0 (R154). -/
def execCCoefsel0 (val : Byte) (s : State) : Host.Outcome State Fault Refusal :=
  s.act (Chip.broadcastCh (Channel.writeCoefsel 0 val))

/-- C.COEFSEL1 (R154). -/
def execCCoefsel1 (val : Byte) (s : State) : Host.Outcome State Fault Refusal :=
  s.act (Chip.broadcastCh (Channel.writeCoefsel 1 val))

/-- C.COEFSEL2 (R154). -/
def execCCoefsel2 (val : Byte) (s : State) : Host.Outcome State Fault Refusal :=
  s.act (Chip.broadcastCh (Channel.writeCoefsel 2 val))

/-- C.COEFSEL3 (R154). -/
def execCCoefsel3 (val : Byte) (s : State) : Host.Outcome State Fault Refusal :=
  s.act (Chip.broadcastCh (Channel.writeCoefsel 3 val))

/-- C.COEFSEL4 (R154). -/
def execCCoefsel4 (val : Byte) (s : State) : Host.Outcome State Fault Refusal :=
  s.act (Chip.broadcastCh (Channel.writeCoefsel 4 val))

/-- C.COEFSEL5 (R154). -/
def execCCoefsel5 (val : Byte) (s : State) : Host.Outcome State Fault Refusal :=
  s.act (Chip.broadcastCh (Channel.writeCoefsel 5 val))

/-- C.COEFSEL6 (R154). -/
def execCCoefsel6 (val : Byte) (s : State) : Host.Outcome State Fault Refusal :=
  s.act (Chip.broadcastCh (Channel.writeCoefsel 6 val))

/-- C.COEFSEL7 (R154). -/
def execCCoefsel7 (val : Byte) (s : State) : Host.Outcome State Fault Refusal :=
  s.act (Chip.broadcastCh (Channel.writeCoefsel 7 val))

/-- C.COEFSEL8 (R154). -/
def execCCoefsel8 (val : Byte) (s : State) : Host.Outcome State Fault Refusal :=
  s.act (Chip.broadcastCh (Channel.writeCoefsel 8 val))

/-- C.COEFSEL9 (R154). -/
def execCCoefsel9 (val : Byte) (s : State) : Host.Outcome State Fault Refusal :=
  s.act (Chip.broadcastCh (Channel.writeCoefsel 9 val))

/-- C.LSTART_LO (R155). -/
def execCLstartLo (val : Byte) (s : State) : Host.Outcome State Fault Refusal :=
  s.act (Chip.broadcastCh (Channel.writeLstartLo val))

/-- C.LSTART_HI (R156). -/
def execCLstartHi (val : Byte) (s : State) : Host.Outcome State Fault Refusal :=
  s.act (Chip.broadcastCh (Channel.writeLstartHi val))

/-- C.LEND_LO (R157). -/
def execCLendLo (val : Byte) (s : State) : Host.Outcome State Fault Refusal :=
  s.act (Chip.broadcastCh (Channel.writeLendLo val))

/-- C.LEND_HI (R158). -/
def execCLendHi (val : Byte) (s : State) : Host.Outcome State Fault Refusal :=
  s.act (Chip.broadcastCh (Channel.writeLendHi val))

/-- C.RESERVED (R159): no state changes. -/
def execCReserved (_sub : Half) (_val : Byte) (s : State) : Host.Outcome State Fault Refusal :=
  s.act id

end Sys2Proof.Machine
end

