-- ==== Sys2Proof/Machine/EnvgRegs.lean ====
section
/-! DEFINITION. The envelope multiplexer and the envelope sub-registers (41_envg_subregisters.md R130 to R139). A SUBE
word goes to every generator that `ENVSEL` selects (R84). -/

namespace Sys2Proof.Machine

/-- R133: `ECTRL[g] <- v`; no cursor moves. -/
def Envg.writeCtrl (v : Byte) (e : Envg) : Envg := { e with ectrl := v }
/-- R134: `MULT[g] <- sext_8(v)`, the same eight bits in a signed register. -/
def Envg.writeMult (v : Byte) (e : Envg) : Envg := { e with mult := v }
/-- R135: `HOLD[g] <- v`. -/
def Envg.writeHold (v : Byte) (e : Envg) : Envg := { e with hold := v }
/-- R136: `STRIDE[g] <- v`; `CS[g]` is not touched. -/
def Envg.writeStride (v : Byte) (e : Envg) : Envg := { e with stride := v }
/-- R137: `MemWrite(ENT[g], i, 1, v)`. -/
def Envg.writeEntry (i : BitVec 7) (v : Byte) (e : Envg) : Envg := { e with ent := Memory.write e.ent i.toNat v }

/-- `write_envg_subreg` (R131), by the field the number names. -/
def Envg.writeField (f : EnvgField) (v : Byte) : Envg → Envg :=
  match f with
  | .ctrl => Envg.writeCtrl v
  | .mult => Envg.writeMult v
  | .hold => Envg.writeHold v
  | .stride => Envg.writeStride v
  | .entry i => Envg.writeEntry i v
  | .reserved => id

/-- `poke_envg(sub, v)` (R130). -/
def Chip.pokeEnvg (cfg : Config) (sub : Half) (v : Byte) (c : Chip) : Chip :=
  c.broadcastEnvg (Envg.writeField (cfg.envgMap.field sub) v)

/-- E.CTRL (R133). -/
def execECtrl (val : Byte) (s : State) : Host.Outcome State Fault Refusal :=
  s.act (Chip.broadcastEnvg (Envg.writeCtrl val))

/-- E.MULT (R134). -/
def execEMult (val : Byte) (s : State) : Host.Outcome State Fault Refusal :=
  s.act (Chip.broadcastEnvg (Envg.writeMult val))

/-- E.HOLD (R135). -/
def execEHold (val : Byte) (s : State) : Host.Outcome State Fault Refusal :=
  s.act (Chip.broadcastEnvg (Envg.writeHold val))

/-- E.STRIDE (R136). -/
def execEStride (val : Byte) (s : State) : Host.Outcome State Fault Refusal :=
  s.act (Chip.broadcastEnvg (Envg.writeStride val))

/-- E.ENTRY (R137). -/
def execEEntry (i : BitVec 7) (val : Byte) (s : State) : Host.Outcome State Fault Refusal :=
  s.act (Chip.broadcastEnvg (Envg.writeEntry i val))

/-- E.RESERVED (R138): no state changes. -/
def execEReserved (_sub : Half) (_val : Byte) (s : State) : Host.Outcome State Fault Refusal :=
  s.act id

end Sys2Proof.Machine
end

