-- ==== Sys2Proof/Machine/Control.lean ====
section
/-! DEFINITION. The control byte: POKE.CONTROL and its triggers (40_bus_registers.md R101 to R109). -/

namespace Sys2Proof.Machine

/-- R103: `ENVSEL <- 0`. -/
def Chip.clrEnvsel (c : Chip) : Chip := c.setEnvsel 0
/-- R104: `WPTR <- 0`. -/
def Chip.clrWptr (c : Chip) : Chip := c.setWptr 0
/-- R105: `WDATA <- 0`, all sixteen bits. -/
def Chip.clrWdata (c : Chip) : Chip := c.setWdata 0
/-- R106: the staged pair goes to the envelope multiplexer. -/
def Chip.fwdEnvg (cfg : Config) (c : Chip) : Chip := c.pokeEnvg cfg (stagedSub cfg c) (stagedByte c)
/-- R107: the staged pair goes to the channel multiplexer. -/
def Chip.fwdChan (cfg : Config) (c : Chip) : Chip := c.pokeChannel cfg (stagedSub cfg c) (stagedByte c)
/-- R108: `MemWrite(RAM, WPTR mod 32768, 1, sext_8(WDATA[7:0]))`; `WPTR` is not incremented. -/
def Chip.fwdRam (c : Chip) : Chip := c.setRam (Memory.write c.ram (ramAddress c.wptr).toNat (stagedByte c))

/-- An action performed when its bit is 1. -/
def onBit (b : Bool) (f : Chip → Chip) (c : Chip) : Chip := if b then f c else c

/-- R101, R102: the byte is stored, then the triggers act on the bits of the byte being written, in ascending bit order,
each seeing what the earlier ones left; bits 3 and 6 trigger nothing (R109). -/
def Chip.writeControl (cfg : Config) (val : Byte) (c : Chip) : Chip :=
  let c := c.setControl val
  let c := onBit (ctlClrEnvselBit val) Chip.clrEnvsel c
  let c := onBit (ctlClrWptrBit val) Chip.clrWptr c
  let c := onBit (ctlClrWdataBit val) Chip.clrWdata c
  let c := onBit (ctlFwdEnvgBit val) (Chip.fwdEnvg cfg) c
  let c := onBit (ctlFwdChanBit val) (Chip.fwdChan cfg) c
  onBit (ctlFwdRamBit val) Chip.fwdRam c

/-- POKE.CONTROL (R101, R102). -/
def execPokeControl (val : Byte) (s : State) : Host.Outcome State Fault Refusal :=
  s.act (Chip.writeControl s.cfg val)

/-- CTL.CLR_ENVSEL (R103). -/
def execCtlClrEnvsel (s : State) : Host.Outcome State Fault Refusal := s.act Chip.clrEnvsel

/-- CTL.CLR_WPTR (R104). -/
def execCtlClrWptr (s : State) : Host.Outcome State Fault Refusal := s.act Chip.clrWptr

/-- CTL.CLR_WDATA (R105). -/
def execCtlClrWdata (s : State) : Host.Outcome State Fault Refusal := s.act Chip.clrWdata

/-- CTL.RSVD3 (R109): triggers nothing. -/
def execCtlRsvd3 (s : State) : Host.Outcome State Fault Refusal := s.act id

/-- CTL.FWD_ENVG (R106). -/
def execCtlFwdEnvg (s : State) : Host.Outcome State Fault Refusal := s.act (Chip.fwdEnvg s.cfg)

/-- CTL.FWD_CHAN (R107). -/
def execCtlFwdChan (s : State) : Host.Outcome State Fault Refusal := s.act (Chip.fwdChan s.cfg)

/-- CTL.RSVD6 (R109): triggers nothing. -/
def execCtlRsvd6 (s : State) : Host.Outcome State Fault Refusal := s.act id

/-- CTL.FWD_RAM (R108). -/
def execCtlFwdRam (s : State) : Host.Outcome State Fault Refusal := s.act Chip.fwdRam

end Sys2Proof.Machine
end

