-- ==== Sys2Proof/Machine/Lifecycle.lean ====
section
/-! DEFINITION. INIT and DESTROY (70_reset_and_hazards.md R270 to R275). -/

namespace Sys2Proof.Machine

/-- INIT (R270, R272): from any state, initialised or not, every element of the chip's state becomes 0 and the chip is
ready. Its parameters, and what the host has observed and has still to issue, are no chip state. -/
def execInit (s : State) : Host.Outcome State Fault Refusal :=
  .next ((s.withChip Chip.zero).withLife .ready)

/-- DESTROY (R275): no architectural state changes; only INIT has a meaning afterwards (D23). -/
def execDestroy (s : State) : Host.Outcome State Fault Refusal :=
  s.whenReady (s.withLife .destroyed)

end Sys2Proof.Machine
end

