-- ==== Sys2Proof/Machine/Biquad.lean ====
section
/-! DEFINITION. The biquad stage (45_biquad.md R195 to R200). -/

namespace Sys2Proof.Machine

/-- R197, R198: the intermediate `a`, each product shifted by itself. `a1` multiplies the older delay. -/
def biquadA (cfg : Config) (k : Coefs) (d : DelayLine) (x : Int) : Int :=
  narrow cfg.accOverflow cfg.accWidth
    (x - floorShift (k.a1.toInt * d.d1) cfg.biquadShift - floorShift (k.a2.toInt * d.d0) cfg.biquadShift)

/-- R197: the exact sum `b` of the three shifted products. -/
def biquadB (cfg : Config) (k : Coefs) (d : DelayLine) (a : Int) : Int :=
  floorShift (k.b0.toInt * a) cfg.biquadShift + floorShift (k.b1.toInt * d.d0) cfg.biquadShift +
    floorShift (k.b2.toInt * d.d1) cfg.biquadShift

/-- One call on one delay line (R197, R199, R200): the clamped output and the shifted delays. -/
def biquadCall (cfg : Config) (k : Coefs) (d : DelayLine) (x : Int) : Int × DelayLine :=
  let a := biquadA cfg k d x
  (clamp (biquadB cfg k d a) (-32767) 32767, ⟨a, d.d0⟩)

/-- The delay line of a side (R195). -/
def Stage.delay (side : Side) (st : Stage) : DelayLine :=
  match side with
  | .left => st.dl
  | .right => st.dr

/-- The delay line of one side replaced, the other side's untouched (R199). -/
def Stage.setDelay (side : Side) (d : DelayLine) (st : Stage) : Stage :=
  match side with
  | .left => { st with dl := d }
  | .right => { st with dr := d }

/-- `biquad(c, s, x, side)` on the stage: the output and the stage after it (R195). -/
def Stage.filter (cfg : Config) (side : Side) (x : Int) (st : Stage) : Int × Stage :=
  let r := biquadCall cfg st.coef (st.delay side) x
  (r.1, st.setDelay side r.2)

end Sys2Proof.Machine
end

