-- ==== Sys2Proof/Machine/Envelope.lean ====
section
/-! DEFINITION. The envelope generator: its update in a tick and its two outputs (44_envelope_generator.md R181 to
R187). -/

namespace Sys2Proof.Machine

/-- R182: bit 0 of `ECTRL` off, cursor and stride count to 0. -/
def Envg.keyReset (e : Envg) : Envg := { e with ectrl := dropKeyReset e.ectrl, ce := 0, cs := 0 }

/-- R183: whether the current entry's stride count still runs. -/
def Envg.withinStride (cmp : StrideCompare) (e : Envg) : Bool :=
  match cmp with
  | .configured => decide (e.cs.toNat < e.stride.toNat)
  | .sourceBug => false

/-- R183: key-on with the cursor on the hold point, compared on all eight bits. -/
def Envg.sustains (e : Envg) : Bool := envgKeyOn e.ectrl && decide (e.ce.toNat = e.hold.toNat)

/-- R184: one entry further, staying at 127. -/
def Envg.advance (e : Envg) : Envg := if e.ce.toNat < 127 then { e with ce := e.ce + 1, cs := 0 } else e

/-- R183. -/
def Envg.step (cmp : StrideCompare) (e : Envg) : Envg :=
  if e.withinStride cmp then { e with cs := e.cs + 1 }
  else if e.sustains then e
  else e.advance

/-- R181, R185: a key-reset replaces the step of its tick; `SQ` is cleared whichever branch was taken. -/
def Envg.update (cmp : StrideCompare) (e : Envg) : Envg :=
  { (if envgKeyReset e.ectrl then e.keyReset else e.step cmp) with sq := false }

/-- `MemRead(ENT[g], CE[g], 1)`. -/
def Envg.entryByte (e : Envg) : Byte := Memory.read e.ent e.ce.toNat

/-- R186: linear output, an exact product. -/
def Envg.lin (e : Envg) : Int := e.mult.toInt * (e.entryByte.toNat : Int)

/-- R187: exponential output, an exact product. -/
def Envg.exp (cfg : Config) (e : Envg) : Int :=
  e.mult.toInt * ((cfg.expTable[e.entryByte.toNat]'e.entryByte.isLt).toNat : Int)

end Sys2Proof.Machine
end

