-- ==== Sys2Proof/Machine/Render.lean ====
section
/-! DEFINITION. Rendering one channel for one side (46_channel_render.md R210 to R221). -/

namespace Sys2Proof.Machine

/-- R211, step 1: reload on key-reset or past the end, then the control byte is cleared. -/
def Channel.cursorCheck (h : Channel) : Channel :=
  { h with
    rptr := if chKeyReset h.cctrl ∨ h.lend.toNat < h.rptr.toNat then ramAddress h.lstart else h.rptr
    cctrl := 0 }

/-- R212, step 2: the sample at the cursor, scaled by 256. -/
def Channel.fetch (ram : Memory) (h : Channel) : Int := (Memory.read ram h.rptr.toNat).toInt * 256

/-- R213, step 3 of the right pass. The 15-bit cursor wraps at 32768. -/
def Channel.advancePlayback (h : Channel) : Channel :=
  if h.acc = 0 then { h with rptr := h.rptr + 1, acc := h.accmax } else { h with acc := h.acc - 1 }

/-- R214, step 4: the side's volume. -/
def Channel.volume (side : Side) (h : Channel) : Int :=
  match side with
  | .left => h.voll.toInt
  | .right => h.volr.toInt

/-- R216: the coefficient that selector `k` drives; the product fits the 16 bits of the register (R186). -/
def Channel.coefFrom (envgs : Vector Envg 16) (h : Channel) (k : Fin 10) : BitVec 16 :=
  BitVec.ofInt 16 (selected envgs h.coefsel[k]).lin

/-- R216, R218, step 5: all ten coefficients, selector `k` to coefficient `k mod 5` of stage `k div 5`. -/
def Channel.loadCoefficients (envgs : Vector Envg 16) (h : Channel) : Channel :=
  { h with
    stage0 := { h.stage0 with
      coef := ⟨h.coefFrom envgs 0, h.coefFrom envgs 1, h.coefFrom envgs 2, h.coefFrom envgs 3, h.coefFrom envgs 4⟩ }
    stage1 := { h.stage1 with
      coef := ⟨h.coefFrom envgs 5, h.coefFrom envgs 6, h.coefFrom envgs 7, h.coefFrom envgs 8, h.coefFrom envgs 9⟩ } }

/-- Steps 1 to 3 and the coefficient load of one pass: everything a pass changes but the delay lines. -/
def Channel.prepare (envgs : Vector Envg 16) (side : Side) (h : Channel) : Channel :=
  let h := h.cursorCheck
  let h := match side with
    | .left => h
    | .right => h.advancePlayback
  h.loadCoefficients envgs

/-- R217: stage 0 then stage 1 in series, on the input of step 4. -/
def Channel.filter (cfg : Config) (side : Side) (x : Int) (h : Channel) : Int × Channel :=
  let r0 := h.stage0.filter cfg side x
  let r1 := h.stage1.filter cfg side r0.1
  (r1.1, { h with stage0 := r0.2, stage1 := r1.2 })

/-- R219, R220, step 6: the amplitude and the descale. -/
def Channel.amplify (cfg : Config) (envgs : Vector Envg 16) (h : Channel) (y : Int) : Int :=
  floorShift (y * (selected envgs h.ampsel).exp cfg) cfg.ampShift

/-- `chan_side(c, side)` (R210). The sample is fetched after the check and before the advance; step 7 writes nothing
(R221). -/
def Channel.side (cfg : Config) (ram : Memory) (envgs : Vector Envg 16) (side : Side) (h : Channel) : Int × Channel :=
  let s1 := (h.cursorCheck.fetch ram) * h.volume side
  let r := (h.prepare envgs side).filter cfg side s1
  (h.amplify cfg envgs r.1, r.2)

end Sys2Proof.Machine
end

