-- ==== Sys2Proof/Machine/Tick.lean ====
section
/-! DEFINITION. The render sequencer: TICK (47_render_sequencer.md R230 to R237). -/

namespace Sys2Proof.Machine

/-- The eleven generators a channel references: ten coefficients and one amplitude (R9 `NREF`, R232). -/
def Channel.references (h : Channel) : List EnvgIx := h.ampsel :: h.coefsel.toList

/-- Whether some channel references generator `g` (R232). -/
def Chip.referenced (c : Chip) (g : Fin 16) : Bool :=
  c.channels.toList.any fun h => h.references.any fun sel => decide (sel.toNat = g.val)

/-- R232, `mark_referenced()`: `SQ` of every referenced generator is set, of the others left as it is. -/
def Chip.markReferenced (c : Chip) : Chip :=
  c.setEnvgs (Vector.ofFn fun g => { c.envgs[g] with sq := c.referenced g || c.envgs[g].sq })

/-- R233: every marked generator is updated once, before any channel is rendered. -/
def Chip.updateMarked (cmp : StrideCompare) (c : Chip) : Chip :=
  c.setEnvgs (mapAll (fun e => if e.sq then e.update cmp else e) c.envgs)

/-- R235, `mix`: the exact sum of the eight outputs, then the floor of an eighth. -/
def mix (out : Vector Int 8) : Int :=
  floorShift (out[0] + out[1] + out[2] + out[3] + out[4] + out[5] + out[6] + out[7]) 3

/-- R234 and R236: one pass over the eight channels, and the mix of its outputs. -/
def Chip.renderPass (cfg : Config) (side : Side) (c : Chip) : Int × Chip :=
  let r := mapAll (Channel.side cfg c.ram c.envgs side) c.channels
  (mix (mapAll Prod.fst r), c.setChannels (mapAll Prod.snd r))

/-- Phases 1 to 3 of a TICK (R231 to R233). -/
def Chip.beginTick (cfg : Config) (c : Chip) : Chip :=
  ((c.setControl 0).markReferenced).updateMarked cfg.strideCompare

/-- TICK (R230): the frame it returns and the chip after it. -/
def Chip.tick (cfg : Config) (c : Chip) : (Int × Int) × Chip :=
  let l := (c.beginTick cfg).renderPass cfg .left
  let r := l.2.renderPass cfg .right
  ((l.1, r.1), r.2)

/-- TICK (R230, R237): the frame is returned, left sample first. -/
def execTick (s : State) : Host.Outcome State Fault Refusal :=
  let t := s.chip.tick s.cfg
  s.whenReady ((s.withChip t.2).observe (.frame t.1.1 t.1.2))

end Sys2Proof.Machine
end

