-- ==== Sys2Proof/Machine/Dispatch.lean ====
section
/-! DEFINITION. One arm for each row of spec/opcode_table.json: the meaning of every operation. -/

namespace Sys2Proof.Machine

/-- What an operation does. -/
def exec (i : Instr) (s : State) : Host.Outcome State Fault Refusal :=
  match i with
  | .pokeControl val => Sys2Proof.Machine.execPokeControl val s
  | .pokeChsel val => Sys2Proof.Machine.execPokeChsel val s
  | .pokeEnvselLo val => Sys2Proof.Machine.execPokeEnvselLo val s
  | .pokeEnvselHi val => Sys2Proof.Machine.execPokeEnvselHi val s
  | .pokeWptrLo val => Sys2Proof.Machine.execPokeWptrLo val s
  | .pokeWptrHi val => Sys2Proof.Machine.execPokeWptrHi val s
  | .pokeWdataLo val => Sys2Proof.Machine.execPokeWdataLo val s
  | .pokeWdataHi val => Sys2Proof.Machine.execPokeWdataHi val s
  | .pokeUnmapped addr val => Sys2Proof.Machine.execPokeUnmapped addr val s
  | .peekControl => Sys2Proof.Machine.execPeekControl s
  | .peekChctrl c => Sys2Proof.Machine.execPeekChctrl c s
  | .peekEnvctrl g => Sys2Proof.Machine.execPeekEnvctrl g s
  | .peekUnmapped addr => Sys2Proof.Machine.execPeekUnmapped addr s
  | .tick => Sys2Proof.Machine.execTick s
  | .init => Sys2Proof.Machine.execInit s
  | .destroy => Sys2Proof.Machine.execDestroy s
  | .ctlClrEnvsel => Sys2Proof.Machine.execCtlClrEnvsel s
  | .ctlClrWptr => Sys2Proof.Machine.execCtlClrWptr s
  | .ctlClrWdata => Sys2Proof.Machine.execCtlClrWdata s
  | .ctlRsvd3 => Sys2Proof.Machine.execCtlRsvd3 s
  | .ctlFwdEnvg => Sys2Proof.Machine.execCtlFwdEnvg s
  | .ctlFwdChan => Sys2Proof.Machine.execCtlFwdChan s
  | .ctlRsvd6 => Sys2Proof.Machine.execCtlRsvd6 s
  | .ctlFwdRam => Sys2Proof.Machine.execCtlFwdRam s
  | .eCtrl val => Sys2Proof.Machine.execECtrl val s
  | .eMult val => Sys2Proof.Machine.execEMult val s
  | .eHold val => Sys2Proof.Machine.execEHold val s
  | .eStride val => Sys2Proof.Machine.execEStride val s
  | .eEntry k val => Sys2Proof.Machine.execEEntry k val s
  | .eReserved sub val => Sys2Proof.Machine.execEReserved sub val s
  | .cCtrl val => Sys2Proof.Machine.execCCtrl val s
  | .cVoll val => Sys2Proof.Machine.execCVoll val s
  | .cVolr val => Sys2Proof.Machine.execCVolr val s
  | .cAccmaxLo val => Sys2Proof.Machine.execCAccmaxLo val s
  | .cAccmaxHi val => Sys2Proof.Machine.execCAccmaxHi val s
  | .cAmpsel val => Sys2Proof.Machine.execCAmpsel val s
  | .cCoefsel0 val => Sys2Proof.Machine.execCCoefsel0 val s
  | .cCoefsel1 val => Sys2Proof.Machine.execCCoefsel1 val s
  | .cCoefsel2 val => Sys2Proof.Machine.execCCoefsel2 val s
  | .cCoefsel3 val => Sys2Proof.Machine.execCCoefsel3 val s
  | .cCoefsel4 val => Sys2Proof.Machine.execCCoefsel4 val s
  | .cCoefsel5 val => Sys2Proof.Machine.execCCoefsel5 val s
  | .cCoefsel6 val => Sys2Proof.Machine.execCCoefsel6 val s
  | .cCoefsel7 val => Sys2Proof.Machine.execCCoefsel7 val s
  | .cCoefsel8 val => Sys2Proof.Machine.execCCoefsel8 val s
  | .cCoefsel9 val => Sys2Proof.Machine.execCCoefsel9 val s
  | .cLstartLo val => Sys2Proof.Machine.execCLstartLo val s
  | .cLstartHi val => Sys2Proof.Machine.execCLstartHi val s
  | .cLendLo val => Sys2Proof.Machine.execCLendLo val s
  | .cLendHi val => Sys2Proof.Machine.execCLendHi val s
  | .cReserved sub val => Sys2Proof.Machine.execCReserved sub val s

end Sys2Proof.Machine
end

