-- ==== Sys2Proof/Machine/Run.lean ====
section
/-! DEFINITION. Issuing one word to the chip, and the fixed sequences of operations of 30_encoding.md R94 and R95. -/

namespace Sys2Proof.Machine

/-- Operations one after the other, each on the state the last one left; the first that has no next state ends it. -/
def runAll : List Instr → State → Host.Outcome State Fault Refusal
  | [], s => .next s
  | i :: is, s =>
    match exec i s with
    | .next t => runAll is t
    | .fault f => .fault f
    | .refused r => .refused r

/-- One word of any format: what it decodes to is performed, a word that is no operation is refused (R90, R91). -/
def issue (w : OpWord) (s : State) : Host.Outcome State Fault Refusal :=
  match decode s.cfg w with
  | .ok is => runAll is s
  | .error (.notAnOperation kind) => .refused (.notAnOperation kind)

/-! ## Pseudo-operations (R94, R95) -/

/-- `lo(x)`. -/
def lo (x : Half) : Byte := x.setWidth 8
/-- `hi(x)`. -/
def hi (x : Half) : Byte := x.extractLsb' 8 8

/-- `WENVG m, s, v`: sub-register `sub` of every generator in mask `m` gets `v`. -/
def wenvg (m sub : Half) (v : Byte) : List Instr :=
  [.pokeControl 0x07, .pokeEnvselLo (lo m), .pokeEnvselHi (hi m), .pokeWptrLo (lo sub), .pokeWptrHi (hi sub),
   .pokeWdataLo v, .pokeControl 0x10]

/-- `WCHAN m, s, v`: sub-register `sub` of every channel in mask `m` gets `v`. -/
def wchan (m : Byte) (sub : Half) (v : Byte) : List Instr :=
  [.pokeChsel m, .pokeControl 0x06, .pokeWptrLo (lo sub), .pokeWptrHi (hi sub), .pokeWdataLo v, .pokeControl 0x20]

/-- `WRAM a, v`: `RAM[a mod 32768] <- sext_8(v)`. -/
def wram (a : Half) (v : Byte) : List Instr :=
  [.pokeControl 0x06, .pokeWptrLo (lo a), .pokeWptrHi (hi a), .pokeWdataLo v, .pokeControl 0x80]

/-- `RENDER n`, `render(buffer, n)`: `n` times TICK with nothing between (R7, R240). -/
def render (n : Nat) : List Instr := List.replicate n .tick

end Sys2Proof.Machine
end

