-- ==== Sys2Proof/Machine/Step.lean ====
section
/-! DEFINITION. One step of the machine: the chip has no program counter and fetches no instructions (10_state.md R22);
what happens next is the next word the host issues (00_scope.md R5, R7, log 1). -/

namespace Sys2Proof.Machine

/-- One operation, atomic (R6). With nothing to issue the chip is idle and keeps all its state (R258, log 1). -/
def step (s : State) : Host.Outcome State Fault Refusal :=
  match s.pending with
  | [] => .next s
  | w :: rest => issue w (s.withPending rest)

/-- `s` with the word of the opcode table whose `nbits` bits are `w` put before the words still to be issued, so that
the next step performs it (log 1, log 6, log 8); `s` itself where the table has no such word. -/
def State.withFetchWord (s : State) (nbits w : Nat) : State :=
  match tableWord s.cfg nbits w with
  | none => s
  | some x => s.withPending (x :: s.pending)

end Sys2Proof.Machine
end

