-- ==== Sys2Proof/Safety.lean ====
section
/-! DEFINITION. What every state between two operations satisfies, in the words the statements use. -/

namespace Sys2Proof.Machine

/-- A generator between two operations: its table has the canonical form of 128 entries (R35) and `SQ[g]` is 0 (R38,
R185). -/
abbrev Envg.atRest (e : Envg) : Prop := Memory.wf 128 e.ent = true ∧ e.sq = false

/-- A chip between two operations: the sample RAM has the canonical form of 32768 bytes (R28) and every generator is at
rest. -/
abbrev Chip.atRest (c : Chip) : Prop := Memory.wf 32768 c.ram = true ∧ ∀ g : Fin 16, c.envgs[g].atRest

/-- Both delays are signed numbers of `width` bits (R50, R198). -/
abbrev DelayLine.fits (width : Nat) (d : DelayLine) : Prop :=
  (-(2 ^ (width - 1)) ≤ d.d0 ∧ d.d0 < 2 ^ (width - 1)) ∧ -(2 ^ (width - 1)) ≤ d.d1 ∧ d.d1 < 2 ^ (width - 1)

/-- All four delay lines of a channel fit. -/
abbrev Channel.delaysFit (width : Nat) (h : Channel) : Prop :=
  (h.stage0.dl.fits width ∧ h.stage0.dr.fits width) ∧ h.stage1.dl.fits width ∧ h.stage1.dr.fits width

/-- The invariant of the machine: the chip is at rest, its parameters are legal, and every delay is a number of
`ACC_WIDTH` bits. -/
abbrev State.Inv (s : State) : Prop :=
  s.chip.atRest ∧ s.cfg.wf ∧ ∀ c : Fin 8, s.chip.channels[c].delaysFit s.cfg.accWidth

/-- Only the host's own words are still to be issued (log 8). -/
def State.hostOnly (s : State) : Bool :=
  s.pending.all fun
    | .hop _ => true
    | .ctl _ => false
    | .sube _ => false
    | .subc _ => false

/-! ## R230 as it is printed

The model takes the generators and the channels of a tick side by side (log 17); these are the loops of R230 and R232,
one entity after the other in ascending order. -/

/-- R232's loop: one `SQ` bit after the other. -/
def Chip.markLoop (c : Chip) : Chip :=
  (List.finRange 8).foldl
    (fun c i => c.channels[i].references.foldl
      (fun c sel => c.setEnvgs (c.envgs.set sel.toNat { selected c.envgs sel with sq := true } sel.isLt)) c) c

/-- R230, phase 3: `for g in 0..15: if SQ[g] = 1 then envg_update(g)`. -/
def Chip.updateLoop (cmp : StrideCompare) (c : Chip) : Chip :=
  (List.finRange 16).foldl
    (fun c g => if c.envgs[g].sq then c.setEnvgs (c.envgs.set g (c.envgs[g].update cmp)) else c) c

/-- R230, phases 4 and 5: `for c in 0..7: out[c] <- chan_side(c, side)`, each on the chip the earlier ones left. -/
def Chip.sideLoop (cfg : Config) (side : Side) (c : Chip) : Vector Int 8 × Chip :=
  (List.finRange 8).foldl
    (fun p (i : Fin 8) =>
      let r := p.2.channels[i].side cfg p.2.ram p.2.envgs side
      (p.1.set i r.1, p.2.setChannels (p.2.channels.set i r.2)))
    (Vector.replicate 8 0, c)

/-- R230: the five phases in their order. -/
def Chip.tickLoop (cfg : Config) (c : Chip) : (Int × Int) × Chip :=
  let c := c.setControl 0
  let c := c.markLoop
  let c := c.updateLoop cfg.strideCompare
  let l := c.sideLoop cfg .left
  let r := l.2.sideLoop cfg .right
  ((mix l.1, mix r.1), r.2)

/-- A channel without what only the right side uses: its right volume and its right delay lines (R50). -/
def Channel.leftPart (h : Channel) : Channel :=
  { h with
    volr := 0
    stage0 := { h.stage0 with dr := ⟨0, 0⟩ }
    stage1 := { h.stage1 with dr := ⟨0, 0⟩ } }

/-- A chip without what only the right side uses. -/
def Chip.leftPart (c : Chip) : Chip := c.setChannels (mapAll Channel.leftPart c.channels)

/-- Some channel references generator `g`, by its amplitude selector or one of its ten coefficient selectors (R232). -/
abbrev Chip.References (c : Chip) (g : Fin 16) : Prop :=
  ∃ i : Fin 8, c.channels[i].ampsel.toNat = g.val ∨ ∃ k : Fin 10, c.channels[i].coefsel[k].toNat = g.val

end Sys2Proof.Machine
end

