-- ==== Sys2Proof/Certificates/Slice0/Obligations.lean ====
section
/-! DEFINITION. The statements about the model, from the numbered rules of spec/. A chip is "ready" after INIT and before
DESTROY; what the other two lives do is in `OutsideLifeOnlyInitRuns`. -/

open Sys2Proof Sys2Proof.Machine

/-! ## INIT and DESTROY -/

/-- R53, R272: "After INIT every element of the state listed in rule R20 is 0", from any state. The clauses on the fields
outside the chip are the model's choice: the life becomes ready (log 3), and the parameters (log 4), the words still to be
issued (log 1) and what has been observed (log 9) are unchanged. -/
def Obligations.InitZeroesEverything : Prop :=
  ∀ s : State, ∃ t, exec .init s = .next t ∧
    t.life = .ready ∧ t.cfg = s.cfg ∧ t.pending = s.pending ∧ t.observed = s.observed ∧
    t.chip.control = 0 ∧ t.chip.chsel = 0 ∧ t.chip.envsel = 0 ∧ t.chip.wptr = 0 ∧ t.chip.wdata = 0 ∧
    (∀ a, Memory.read t.chip.ram a = 0) ∧
    (∀ g : Fin 16,
      let e := t.chip.envgs[g]
      e.ectrl = 0 ∧ e.mult = 0 ∧ e.hold = 0 ∧ e.stride = 0 ∧ (∀ i, Memory.read e.ent i = 0) ∧ e.ce = 0 ∧ e.cs = 0 ∧
        e.sq = false) ∧
    (∀ c : Fin 8,
      let h := t.chip.channels[c]
      h.cctrl = 0 ∧ h.voll = 0 ∧ h.volr = 0 ∧ h.accmax = 0 ∧ h.ampsel = 0 ∧ (∀ k : Fin 10, h.coefsel[k] = 0) ∧
        h.lstart = 0 ∧ h.lend = 0 ∧ h.acc = 0 ∧ h.rptr = 0 ∧
        h.stage0 = ⟨⟨0, 0, 0, 0, 0⟩, ⟨0, 0⟩, ⟨0, 0⟩⟩ ∧ h.stage1 = ⟨⟨0, 0, 0, 0, 0⟩, ⟨0, 0⟩, ⟨0, 0⟩⟩)

/-- The model's choice (log 2): the reset state is the one INIT leaves, from any chip and any life. -/
def Obligations.ResetIsWhatInitLeaves : Prop :=
  ∀ (c : Chip) (l : Life), exec .init ⟨c, l, Config.default, [], []⟩ = .next State.reset

/-- DESTROY changes no chip state; the life it leaves is the spec's decision D23 (log 3). -/
def Obligations.DestroyKeepsTheChip : Prop :=
  ∀ s : State, s.life = .ready → exec .destroy s = .next { s with life := .destroyed }

/-- D23 (log 3): before the first INIT and after DESTROY every other operation is refused, and INIT always runs. -/
def Obligations.OutsideLifeOnlyInitRuns : Prop :=
  ∀ (i : Instr) (s : State), i ≠ .init →
    (s.life = .uninitialised → exec i s = .refused .notInitialised) ∧
    (s.life = .destroyed → exec i s = .refused .afterDestroy) ∧
    ∃ t, exec .init s = .next t ∧ t.life = .ready

/-- R250: no operation fails. On a ready chip every operation, with every operand, has a next state; the one thing a run
can meet outside that life is D23's refusal. -/
def Obligations.EveryOperationCompletes : Prop :=
  ∀ (i : Instr) (s : State), s.life = .ready → ∃ t, exec i s = .next t ∧ (i = .destroy ∨ t.life = .ready)

/-! ## The register bus -/

/-- R110: a POKE of `0x0001` replaces all eight bits of `CHSEL`; nothing else changes. -/
def Obligations.PokeChselReplaces : Prop :=
  ∀ v : Byte, decodePoke 0x0001 v = .pokeChsel v ∧
    ∀ s : State, s.life = .ready → exec (.pokeChsel v) s = .next { s with chip := { s.chip with chsel := v } }

/-- R111 to R115, and the same of `WDATA`'s high half (R116): POKEs of `0x0002` to `0x0007` OR the byte into one half of
`ENVSEL`, `WPTR` or `WDATA`; nothing else changes. -/
def Obligations.PokeStagingHalvesAreOred : Prop :=
  ∀ v : Byte,
    (decodePoke 0x0002 v = .pokeEnvselLo v ∧ decodePoke 0x0003 v = .pokeEnvselHi v ∧
      decodePoke 0x0004 v = .pokeWptrLo v ∧ decodePoke 0x0005 v = .pokeWptrHi v ∧
      decodePoke 0x0006 v = .pokeWdataLo v ∧ decodePoke 0x0007 v = .pokeWdataHi v) ∧
    ∀ s : State, s.life = .ready →
    exec (.pokeEnvselLo v) s = .next { s with chip := { s.chip with envsel := s.chip.envsel ||| v.setWidth 16 } } ∧
    exec (.pokeEnvselHi v) s =
      .next { s with chip := { s.chip with envsel := s.chip.envsel ||| (v.setWidth 16 <<< 8) } } ∧
    exec (.pokeWptrLo v) s = .next { s with chip := { s.chip with wptr := s.chip.wptr ||| v.setWidth 16 } } ∧
    exec (.pokeWptrHi v) s = .next { s with chip := { s.chip with wptr := s.chip.wptr ||| (v.setWidth 16 <<< 8) } } ∧
    exec (.pokeWdataLo v) s = .next { s with chip := { s.chip with wdata := s.chip.wdata ||| v.setWidth 16 } } ∧
    exec (.pokeWdataHi v) s =
      .next { s with chip := { s.chip with wdata := s.chip.wdata ||| (v.setWidth 16 <<< 8) } }

/-- R118: whatever bytes are written to the two halves of a staging register, in whatever order, it ends as the OR of
what it held, all low bytes and all high bytes. -/
def Obligations.StagingWritesAccumulate : Prop :=
  ∀ (ws : List (Bool × Byte)) (s : State), s.life = .ready →
    let low := (ws.filter fun w => !w.1).foldl (fun acc w => acc ||| w.2) 0
    let high := (ws.filter fun w => w.1).foldl (fun acc w => acc ||| w.2) 0
    let held (x : Half) : Half := x ||| low.setWidth 16 ||| (high.setWidth 16 <<< 8)
    runAll (ws.map fun w => if w.1 then .pokeWptrHi w.2 else .pokeWptrLo w.2) s =
      .next { s with chip := { s.chip with wptr := held s.chip.wptr } } ∧
    runAll (ws.map fun w => if w.1 then .pokeEnvselHi w.2 else .pokeEnvselLo w.2) s =
      .next { s with chip := { s.chip with envsel := held s.chip.envsel } } ∧
    runAll (ws.map fun w => if w.1 then .pokeWdataHi w.2 else .pokeWdataLo w.2) s =
      .next { s with chip := { s.chip with wdata := held s.chip.wdata } }

/-- POKE of any address but 0..7 decodes to POKE.UNMAPPED, the read windows included (D3), and changes nothing. -/
def Obligations.PokeUnmappedDoesNothing : Prop :=
  ∀ (addr : Half) (v : Byte),
    (8 ≤ addr.toNat → decodePoke addr v = .pokeUnmapped addr v) ∧
    ∀ s : State, s.life = .ready → exec (.pokeUnmapped addr v) s = .next s

/-- R103, R104, R105: bits 0, 1, 2 of a control byte are the clear triggers; each zeroes its register, all bits of it, and
nothing else. -/
def Obligations.ClearTriggersZeroTheirRegister : Prop :=
  (∀ v : Byte, (.ctlClrEnvsel ∈ decodeCtl v ↔ v.getLsbD 0 = true) ∧ (.ctlClrWptr ∈ decodeCtl v ↔ v.getLsbD 1 = true) ∧
    (.ctlClrWdata ∈ decodeCtl v ↔ v.getLsbD 2 = true)) ∧
  ∀ s : State, s.life = .ready →
    exec .ctlClrEnvsel s = .next { s with chip := { s.chip with envsel := 0 } } ∧
    exec .ctlClrWptr s = .next { s with chip := { s.chip with wptr := 0 } } ∧
    exec .ctlClrWdata s = .next { s with chip := { s.chip with wdata := 0 } }

/-- R108: bit 7 of a control byte is the forward to the RAM; the staged byte, read as signed, lands at `WPTR mod 32768`; every other byte of `RAM` and everything else is
unchanged, `WPTR` and the select masks playing no other part. -/
def Obligations.FwdRamStoresTheStagedByte : Prop :=
  (∀ v : Byte, .ctlFwdRam ∈ decodeCtl v ↔ v.getLsbD 7 = true) ∧
  ∀ s : State, s.life = .ready → s.chip.atRest →
    ∃ m, exec .ctlFwdRam s = .next { s with chip := { s.chip with ram := m } } ∧
      (Memory.read m (s.chip.wptr.toNat % 32768)).toInt =
        (if s.chip.wdata.toNat % 256 < 128 then (s.chip.wdata.toNat % 256 : Int)
          else (s.chip.wdata.toNat % 256 : Int) - 256) ∧
      ∀ a, a ≠ s.chip.wptr.toNat % 32768 → Memory.read m a = Memory.read s.chip.ram a

/-- D7: bits 3 and 6 trigger nothing; a control byte with no other bit set is only stored. -/
def Obligations.ReservedControlBitsTriggerNothing : Prop :=
  ∀ s : State, s.life = .ready →
    exec .ctlRsvd3 s = .next s ∧ exec .ctlRsvd6 s = .next s ∧
    ∀ v : Byte, v &&& 0xB7 = 0 → exec (.pokeControl v) s = .next { s with chip := { s.chip with control := v } }

/-- R101 with D8's order: POKE.CONTROL stores the byte, then performs the row of every set bit of the byte written, in
ascending bit order, each on the state the earlier ones left; the stored byte is the byte written. -/
def Obligations.PokeControlPerformsItsSetBits : Prop :=
  ∀ (s : State) (v : Byte), s.life = .ready →
    exec (.pokeControl v) s = runAll (decodeCtl v) { s with chip := { s.chip with control := v } } ∧
    ∃ t, exec (.pokeControl v) s = .next t ∧ t.chip.control = v ∧ t.chip.chsel = s.chip.chsel ∧
      t = { s with chip := t.chip }

/-- D4, D5, D6: a forward delivers the staged pair (`WPTR`, low byte of `WDATA`) as a SUBE or SUBC word; under the
alternative of `SUBREG_SRC` the number is the high byte of `WDATA` (log 14). -/
def Obligations.ForwardsRunTheStagedWord : Prop :=
  ∀ s : State,
    let sub : Half := match s.cfg.subregSrc with
      | .wptr => s.chip.wptr
      | .wdataHigh => BitVec.ofNat 16 (s.chip.wdata.toNat / 256)
    let val : Byte := BitVec.ofNat 8 s.chip.wdata.toNat
    exec .ctlFwdEnvg s = exec (decodeSube s.cfg sub val) s ∧
    exec .ctlFwdChan s = exec (decodeSubc s.cfg sub val) s ∧
    (s.life = .ready → (∃ t, exec .ctlFwdEnvg s = .next t ∧ t = { s with chip := { s.chip with envgs := t.chip.envgs } }) ∧
      ∃ t, exec .ctlFwdChan s = .next t ∧ t = { s with chip := { s.chip with channels := t.chip.channels } })

/-- R27: only the low byte of `WDATA` is ever used. A chip whose `WDATA` differs in the high byte does the same under every
operation, and differs in no more than that high byte afterwards; with the default `SUBREG_SRC` (log 14). -/
def Obligations.WdataHighByteHasNoEffect : Prop :=
  ∀ (i : Instr) (s : State) (w : Half), s.life = .ready → s.cfg.subregSrc = .wptr →
    w.toNat % 256 = s.chip.wdata.toNat % 256 →
    ∃ (t : State) (w' : Half), exec i s = .next t ∧ w'.toNat % 256 = t.chip.wdata.toNat % 256 ∧
      exec i { s with chip := { s.chip with wdata := w } } = .next { t with chip := { t.chip with wdata := w' } }

/-- PEEK of `CONTROL` and of the two windows returns the control byte named and changes nothing (the windows' place is
D3). -/
def Obligations.PeekReturnsTheControlByte : Prop :=
  ∀ s : State, s.life = .ready →
    exec .peekControl s = .next { s with observed := s.observed ++ [.peeked s.chip.control] } ∧
    (∀ c : Fin 8, exec (.peekChctrl c) s =
      .next { s with observed := s.observed ++ [.peeked s.chip.channels[c].cctrl] }) ∧
    ∀ g : Fin 16, exec (.peekEnvctrl g) s =
      .next { s with observed := s.observed ++ [.peeked s.chip.envgs[g].ectrl] }

/-- R124: PEEK of an address that no more specific row takes, `0x0001..0x0007` among them, returns `0xFF` whatever the
chip holds. -/
def Obligations.PeekUnmappedReturnsTheSentinel : Prop :=
  ∀ (cfg : Config) (addr : Half), addr ≠ 0 →
    ¬ (cfg.peekChBase ≤ addr.toNat ∧ addr.toNat < cfg.peekChBase + 8) →
    ¬ (cfg.peekEnvgBase ≤ addr.toNat ∧ addr.toNat < cfg.peekEnvgBase + 16) →
    decodePeek cfg addr = .peekUnmapped addr ∧
    ∀ s : State, s.life = .ready →
      exec (.peekUnmapped addr) s = .next { s with observed := s.observed ++ [.peeked 0xFF] }

/-- R52: two chips that agree in the 25 control bytes answer every PEEK alike, whatever else differs. -/
def Obligations.PeekSeesOnlyControlBytes : Prop :=
  ∀ (s s' : State) (addr : Half), s.life = .ready → s'.life = .ready → s.cfg = s'.cfg →
    s.chip.control = s'.chip.control →
    (∀ c : Fin 8, s.chip.channels[c].cctrl = s'.chip.channels[c].cctrl) →
    (∀ g : Fin 16, s.chip.envgs[g].ectrl = s'.chip.envgs[g].ectrl) →
    ∃ v, exec (decodePeek s.cfg addr) s = .next { s with observed := s.observed ++ [.peeked v] } ∧
      exec (decodePeek s'.cfg addr) s' = .next { s' with observed := s'.observed ++ [.peeked v] }

/-! ## The two multiplexers -/

/-- R130 and R145: a word delivered to a multiplexer is written in every entity whose mask bit is 1, one after the other in
ascending order; the model writes them side by side (log 17). -/
def Obligations.MultiplexersVisitTheSelectedInOrder : Prop :=
  ∀ (s : State) (sub : Half) (v : Byte), s.life = .ready →
    exec (decodeSube s.cfg sub v) s = .next { s with chip := { s.chip with
      envgs := (List.finRange 16).foldl
        (fun es (g : Fin 16) =>
          if s.chip.envsel.getLsbD g.val then es.set g (Envg.writeField (s.cfg.envgMap.field sub) v es[g]) else es)
        s.chip.envgs } } ∧
    exec (decodeSubc s.cfg sub v) s = .next { s with chip := { s.chip with
      channels := (List.finRange 8).foldl
        (fun hs (c : Fin 8) =>
          if s.chip.chsel.getLsbD c.val then hs.set c (Channel.writeField (s.cfg.chMap.field sub) v hs[c]) else hs)
        s.chip.channels } }

/-! ## The envelope multiplexer -/

/-- R130 with D6 and D9: the scalar sub-registers are written in every generator that `ENVSEL` selects and in no other,
and nothing else changes; `MULT` is the byte read as signed. -/
def Obligations.EnvelopeScalarWrites : Prop :=
  ∀ (s : State) (v : Byte), s.life = .ready →
    let broadcast (i : Instr) (f : Envg → Envg) : Prop :=
      ∃ es : Vector Envg 16, exec i s = .next { s with chip := { s.chip with envgs := es } } ∧
        ∀ g : Fin 16, es[g] = if s.chip.envsel.getLsbD g.val then f s.chip.envgs[g] else s.chip.envgs[g]
    broadcast (.eCtrl v) (fun e => { e with ectrl := v }) ∧
    broadcast (.eMult v)
      (fun e => { e with mult := BitVec.ofInt 8 (if v.toNat < 128 then (v.toNat : Int) else (v.toNat : Int) - 256) }) ∧
    broadcast (.eHold v) (fun e => { e with hold := v }) ∧
    broadcast (.eStride v) (fun e => { e with stride := v })

/-- R130 with D6: E.ENTRY writes entry `i` of every selected generator; every other entry, every other field and every
other generator is unchanged. -/
def Obligations.EnvelopeEntryWrite : Prop :=
  ∀ (s : State) (i : BitVec 7) (v : Byte), s.life = .ready → s.chip.atRest →
    ∃ es : Vector Envg 16, exec (.eEntry i v) s = .next { s with chip := { s.chip with envgs := es } } ∧
      ∀ g : Fin 16,
        (s.chip.envsel.getLsbD g.val = true →
          (∃ m, es[g] = { s.chip.envgs[g] with ent := m }) ∧ Memory.read es[g].ent i.toNat = v ∧
            ∀ j, j ≠ i.toNat → Memory.read es[g].ent j = Memory.read s.chip.envgs[g].ent j) ∧
        (s.chip.envsel.getLsbD g.val = false → es[g] = s.chip.envgs[g])

/-- D5, D6: the numbers outside the default maps are reserved, and a write to a reserved number changes nothing. -/
def Obligations.ReservedSubregistersDoNothing : Prop :=
  (∀ sub : Half, (EnvgSubregMap.default.field sub = .reserved ↔ 4 ≤ sub.toNat ∧ sub.toNat ≤ 127 ∨ 256 ≤ sub.toNat) ∧
    (ChSubregMap.default.field sub = .reserved ↔ sub.toNat = 1 ∨ 21 ≤ sub.toNat)) ∧
  ∀ (s : State) (sub : Half) (v : Byte), s.life = .ready →
    exec (.eReserved sub v) s = .next s ∧ exec (.cReserved sub v) s = .next s

/-! ## The channel multiplexer -/

/-- R145, R148: C.CTRL stores the byte in every selected channel, and bits 1, 2, 3 of the byte written clear `ACCMAX`,
`LSTART`, `LEND`; `ACC`, `RPTR`, the delay lines and every other channel are unchanged (R286). -/
def Obligations.ChannelControlWrite : Prop :=
  ∀ (s : State) (v : Byte), s.life = .ready →
    ∃ hs : Vector Channel 8, exec (.cCtrl v) s = .next { s with chip := { s.chip with channels := hs } } ∧
      ∀ c : Fin 8, hs[c] =
        if s.chip.chsel.getLsbD c.val then
          { s.chip.channels[c] with
            cctrl := v
            accmax := if v.getLsbD 1 then 0 else s.chip.channels[c].accmax
            lstart := if v.getLsbD 2 then 0 else s.chip.channels[c].lstart
            lend := if v.getLsbD 3 then 0 else s.chip.channels[c].lend }
        else s.chip.channels[c]

/-- R145 with D5 and D9: the volumes take the byte read as signed, in the selected channels only. -/
def Obligations.ChannelVolumeWrites : Prop :=
  ∀ (s : State) (v : Byte), s.life = .ready →
    let signed : Byte := BitVec.ofInt 8 (if v.toNat < 128 then (v.toNat : Int) else (v.toNat : Int) - 256)
    let broadcast (i : Instr) (f : Channel → Channel) : Prop :=
      ∃ hs : Vector Channel 8, exec i s = .next { s with chip := { s.chip with channels := hs } } ∧
        ∀ c : Fin 8, hs[c] = if s.chip.chsel.getLsbD c.val then f s.chip.channels[c] else s.chip.channels[c]
    broadcast (.cVoll v) (fun h => { h with voll := signed }) ∧
    broadcast (.cVolr v) (fun h => { h with volr := signed })

/-- R145 with D5: the two halves of `ACCMAX`, `LSTART` and `LEND` are OR-ed, in the selected channels only. -/
def Obligations.ChannelHalvesAreOred : Prop :=
  ∀ (s : State) (v : Byte), s.life = .ready →
    let broadcast (i : Instr) (f : Channel → Channel) : Prop :=
      ∃ hs : Vector Channel 8, exec i s = .next { s with chip := { s.chip with channels := hs } } ∧
        ∀ c : Fin 8, hs[c] = if s.chip.chsel.getLsbD c.val then f s.chip.channels[c] else s.chip.channels[c]
    broadcast (.cAccmaxLo v) (fun h => { h with accmax := h.accmax ||| v.setWidth 16 }) ∧
    broadcast (.cAccmaxHi v) (fun h => { h with accmax := h.accmax ||| (v.setWidth 16 <<< 8) }) ∧
    broadcast (.cLstartLo v) (fun h => { h with lstart := h.lstart ||| v.setWidth 16 }) ∧
    broadcast (.cLstartHi v) (fun h => { h with lstart := h.lstart ||| (v.setWidth 16 <<< 8) }) ∧
    broadcast (.cLendLo v) (fun h => { h with lend := h.lend ||| v.setWidth 16 }) ∧
    broadcast (.cLendHi v) (fun h => { h with lend := h.lend ||| (v.setWidth 16 <<< 8) })

/-- R145 with R88 and R154: the selectors take the byte mod 16; the ten rows C.COEFSEL0 to C.COEFSEL9 write the ten
selectors, each its own and no other. -/
def Obligations.ChannelSelectorWrites : Prop :=
  ∀ (s : State) (v : Byte), s.life = .ready →
    let broadcast (i : Instr) (f : Channel → Channel) : Prop :=
      ∃ hs : Vector Channel 8, exec i s = .next { s with chip := { s.chip with channels := hs } } ∧
        ∀ c : Fin 8, hs[c] = if s.chip.chsel.getLsbD c.val then f s.chip.channels[c] else s.chip.channels[c]
    broadcast (.cAmpsel v) (fun h => { h with ampsel := BitVec.ofNat 4 (v.toNat % 16) }) ∧
    ([Instr.cCoefsel0 v, .cCoefsel1 v, .cCoefsel2 v, .cCoefsel3 v, .cCoefsel4 v, .cCoefsel5 v, .cCoefsel6 v,
        .cCoefsel7 v, .cCoefsel8 v, .cCoefsel9 v] = (List.finRange 10).map fun k => coefselInstr k v) ∧
    ∀ k : Fin 10, broadcast (coefselInstr k v)
      (fun h => { h with coefsel := Vector.ofFn fun j => if j = k then BitVec.ofNat 4 (v.toNat % 16) else h.coefsel[j] })

/-! ## Rules over all operations -/

/-- R24, R26, R283: which operations can change a select mask or a staging register; forwards and ticks leave all four. -/
def Obligations.StagingIsSticky : Prop :=
  ∀ (i : Instr) (s t : State), exec i s = .next t → i ≠ .init →
    ((∀ v, i ≠ .pokeChsel v) → t.chip.chsel = s.chip.chsel) ∧
    ((∀ v, i ≠ .pokeEnvselLo v) → (∀ v, i ≠ .pokeEnvselHi v) → i ≠ .ctlClrEnvsel →
      (∀ v, i = .pokeControl v → v.getLsbD 0 = false) → t.chip.envsel = s.chip.envsel) ∧
    ((∀ v, i ≠ .pokeWptrLo v) → (∀ v, i ≠ .pokeWptrHi v) → i ≠ .ctlClrWptr →
      (∀ v, i = .pokeControl v → v.getLsbD 1 = false) → t.chip.wptr = s.chip.wptr) ∧
    ((∀ v, i ≠ .pokeWdataLo v) → (∀ v, i ≠ .pokeWdataHi v) → i ≠ .ctlClrWdata →
      (∀ v, i = .pokeControl v → v.getLsbD 2 = false) → t.chip.wdata = s.chip.wdata)

/-- R28: `RAM` is written only by FWD_RAM (and zeroed by INIT). -/
def Obligations.OnlyFwdRamWritesRam : Prop :=
  ∀ (i : Instr) (s t : State), exec i s = .next t → i ≠ .init → i ≠ .ctlFwdRam →
    (∀ v, i = .pokeControl v → v.getLsbD 7 = false) → t.chip.ram = s.chip.ram

/-- R30, R40: the private cursors, counters, marks, coefficients and delay lines are written only by TICK (and zeroed by
INIT). -/
def Obligations.OnlyTickMovesPrivateState : Prop :=
  ∀ (i : Instr) (s t : State), exec i s = .next t → i ≠ .init → i ≠ .tick →
    (∀ g : Fin 16, t.chip.envgs[g].ce = s.chip.envgs[g].ce ∧ t.chip.envgs[g].cs = s.chip.envgs[g].cs ∧
      t.chip.envgs[g].sq = s.chip.envgs[g].sq) ∧
    ∀ c : Fin 8, t.chip.channels[c].acc = s.chip.channels[c].acc ∧ t.chip.channels[c].rptr = s.chip.channels[c].rptr ∧
      t.chip.channels[c].stage0 = s.chip.channels[c].stage0 ∧ t.chip.channels[c].stage1 = s.chip.channels[c].stage1

/-! ## The envelope generator -/

/-- D11, D12, D13: the five cases of one update, by `ECTRL` bit 0, the stride count, the hold point and the cursor. -/
def Obligations.EnvelopeUpdateCases : Prop :=
  ∀ (cmp : StrideCompare) (e : Envg),
    let within := cmp = .configured ∧ e.cs.toNat < e.stride.toNat
    let held := e.ectrl.getLsbD 1 = true ∧ e.ce.toNat = e.hold.toNat
    (e.ectrl.getLsbD 0 = true → e.update cmp = { e with ectrl := e.ectrl &&& 0xFE, ce := 0, cs := 0, sq := false }) ∧
    (e.ectrl.getLsbD 0 = false →
      (within → e.update cmp = { e with cs := BitVec.ofNat 8 (e.cs.toNat + 1), sq := false }) ∧
      (¬ within → held → e.update cmp = { e with sq := false }) ∧
      (¬ within → ¬ held → e.ce.toNat < 127 →
        e.update cmp = { e with ce := BitVec.ofNat 7 (e.ce.toNat + 1), cs := 0, sq := false }) ∧
      (¬ within → ¬ held → e.ce.toNat = 127 → e.update cmp = { e with sq := false }))

/-- R176, R232, R233, R288: a TICK updates exactly the generators some channel references, each once, however many
references there are; the others are not touched at all. -/
def Obligations.TickStepsReferencedGeneratorsOnce : Prop :=
  ∀ s : State, s.life = .ready → s.chip.atRest →
    ∃ t, exec .tick s = .next t ∧ ∀ g : Fin 16,
      (s.chip.References g → t.chip.envgs[g] = s.chip.envgs[g].update s.cfg.strideCompare) ∧
      (¬ s.chip.References g → t.chip.envgs[g] = s.chip.envgs[g])

/-- R190, the source's property T4: with `STRIDE = 0`, `HOLD = 0` and key-on, a cursor at 0 stays at 0 over any number of
ticks, under both stride comparisons. -/
def Obligations.SustainHoldsForEver : Prop :=
  ∀ (s : State) (g : Fin 16) (n : Nat), s.life = .ready → s.chip.atRest →
    s.chip.envgs[g].ectrl.getLsbD 1 = true → s.chip.envgs[g].stride = 0 → s.chip.envgs[g].hold = 0 →
    s.chip.envgs[g].ce = 0 →
    ∃ t, runAll (render n) s = .next t ∧ t.chip.envgs[g].ce = 0

/-- R191: a referenced generator with an armed key-reset takes its output in the `n`-th tick after the reset from entry
`min(127, n / (STRIDE + 1))`, or from the hold point once it is reached with key-on (R183, R190); under `source_bug` with
`STRIDE` read as 0. -/
def Obligations.FreeRunningEnvelopeTiming : Prop :=
  ∀ (s : State) (g : Fin 16) (n : Nat), s.life = .ready → s.chip.atRest → s.chip.References g →
    s.chip.envgs[g].ectrl.getLsbD 0 = true →
    let stride := if s.cfg.strideCompare = .configured then s.chip.envgs[g].stride.toNat else 0
    let last := if s.chip.envgs[g].ectrl.getLsbD 1 = true then min 127 s.chip.envgs[g].hold.toNat else 127
    ∃ t, runAll (render (n + 1)) s = .next t ∧ t.chip.envgs[g].ce.toNat = min last (n / (stride + 1))

/-- D9, D15: both outputs lie in `-32640..32385`, so a coefficient register holds the linear output exactly. -/
def Obligations.EnvelopeOutputsFitSixteenBits : Prop :=
  ∀ (cfg : Config) (e : Envg),
    -32640 ≤ e.lin ∧ e.lin ≤ 32385 ∧ (BitVec.ofInt 16 e.lin).toInt = e.lin ∧
    -32640 ≤ e.exp cfg ∧ e.exp cfg ≤ 32385

/-! ## The biquad stage -/

/-- R199, R200: one call clamps its output to `-32767..32767`, silently, moves `D[0]` to `D[1]` and stores the unclamped
intermediate in `D[0]`, on the delay line of its side only. The intermediate is the exact feedback sum brought into
`ACC_WIDTH` bits, by wrapping or by saturation (D14, D19, log 12). -/
def Obligations.BiquadClampsAndShiftsItsDelayLine : Prop :=
  ∀ (cfg : Config) (side : Side) (x : Int) (st : Stage), 0 < cfg.accWidth →
    let r := st.filter cfg side x
    let d := st.delay side
    let k := st.coef
    let sh (p : Int) : Int := p / ((2 ^ cfg.biquadShift : Nat) : Int)
    let a : Int := x - sh (k.a1.toInt * d.d1) - sh (k.a2.toInt * d.d0)
    let a' := (r.2.delay side).d0
    let top : Int := 2 ^ (cfg.accWidth - 1)
    let b := sh (k.b0.toInt * a') + sh (k.b1.toInt * d.d0) + sh (k.b2.toInt * d.d1)
    (-32767 ≤ r.1 ∧ r.1 ≤ 32767) ∧ (-32767 ≤ b → b ≤ 32767 → r.1 = b) ∧ (b < -32767 → r.1 = -32767) ∧
      (32767 < b → r.1 = 32767) ∧
    (r.2.delay side).d1 = d.d0 ∧ (-top ≤ a' ∧ a' < top) ∧
    (cfg.accOverflow = .wrap → (a' - a) % 2 ^ cfg.accWidth = 0) ∧
    (cfg.accOverflow = .saturate → a' = if a < -top then -top else if top - 1 < a then top - 1 else a) ∧
    r.2.coef = st.coef ∧ (side = .left → r.2.dr = st.dr) ∧ (side = .right → r.2.dl = st.dl)

/-- U7 (log 12): where the exact intermediate fits 32 bits it is stored exactly, and every width of 32 bits or more and
both overflow policies give the same call. -/
def Obligations.BiquadWithoutOverflowIsExact : Prop :=
  ∀ (cfg : Config) (k : Coefs) (d : DelayLine) (x : Int), 32 ≤ cfg.accWidth →
    let sh (p : Int) : Int := p / ((2 ^ cfg.biquadShift : Nat) : Int)
    let a : Int := x - sh (k.a1.toInt * d.d1) - sh (k.a2.toInt * d.d0)
    a ≤ 2147483647 → -2147483648 ≤ a →
      (biquadCall cfg k d x).2.d0 = a ∧
      ∀ (width : Nat) (p : AccOverflow), 32 ≤ width →
        biquadCall { cfg with accWidth := width, accOverflow := p } k d x = biquadCall cfg k d x

/-- R201, R202: with all coefficients 0 a stage outputs 0 and records its input; with `b0 = 256` and shift 8 it passes its
input through the clamp, for negative inputs too. -/
def Obligations.BiquadSilenceAndPassThrough : Prop :=
  ∀ (cfg : Config) (d : DelayLine) (x : Int), 32 ≤ cfg.accWidth → -2147483648 ≤ x → x ≤ 2147483647 →
    biquadCall cfg ⟨0, 0, 0, 0, 0⟩ d x = (0, ⟨x, d.d0⟩) ∧
    (cfg.biquadShift = 8 → biquadCall cfg ⟨0, 0, 256, 0, 0⟩ d x =
      (if x < -32767 then -32767 else if 32767 < x then 32767 else x, ⟨x, d.d0⟩))

/-! ## TICK -/

/-- R230: a TICK is its five phases in their order, each a loop over the entities in ascending order; the model takes the
entities side by side (log 17). -/
def Obligations.TickIsItsFivePhases : Prop :=
  ∀ s : State, s.life = .ready →
    exec .tick s = .next { s with
      chip := (s.chip.tickLoop s.cfg).2
      observed := s.observed ++ [.frame (s.chip.tickLoop s.cfg).1.1 (s.chip.tickLoop s.cfg).1.2] }

/-- R230: what a TICK never writes; it returns one frame and completes on every ready chip. -/
def Obligations.TickNeverWritesHostState : Prop :=
  ∀ s : State, s.life = .ready →
    ∃ t l r, exec .tick s = .next t ∧
      t = { s with chip := t.chip, observed := s.observed ++ [.frame l r] } ∧
      t.chip.chsel = s.chip.chsel ∧ t.chip.envsel = s.chip.envsel ∧ t.chip.wptr = s.chip.wptr ∧
      t.chip.wdata = s.chip.wdata ∧ t.chip.ram = s.chip.ram ∧
      (∀ g : Fin 16, t.chip.envgs[g].mult = s.chip.envgs[g].mult ∧ t.chip.envgs[g].hold = s.chip.envgs[g].hold ∧
        t.chip.envgs[g].stride = s.chip.envgs[g].stride ∧ t.chip.envgs[g].ent = s.chip.envgs[g].ent ∧
        t.chip.envgs[g].ectrl >>> 1 = s.chip.envgs[g].ectrl >>> 1) ∧
      ∀ c : Fin 8, t.chip.channels[c].voll = s.chip.channels[c].voll ∧
        t.chip.channels[c].volr = s.chip.channels[c].volr ∧ t.chip.channels[c].accmax = s.chip.channels[c].accmax ∧
        t.chip.channels[c].ampsel = s.chip.channels[c].ampsel ∧
        t.chip.channels[c].coefsel = s.chip.channels[c].coefsel ∧
        t.chip.channels[c].lstart = s.chip.channels[c].lstart ∧ t.chip.channels[c].lend = s.chip.channels[c].lend

/-- R231, R221, R185 and R242: after any TICK `CONTROL` is 0, every `CCTRL[c]` is 0, every `SQ[g]` is 0, and the key-reset
bit of every referenced generator is 0. -/
def Obligations.AfterTickTriggersAreClear : Prop :=
  ∀ s : State, s.life = .ready →
    ∃ t, exec .tick s = .next t ∧ t.chip.control = 0 ∧ (∀ c : Fin 8, t.chip.channels[c].cctrl = 0) ∧
      (∀ g : Fin 16, t.chip.envgs[g].sq = false) ∧
      ∀ g : Fin 16, s.chip.References g → t.chip.envgs[g].ectrl.getLsbD 0 = false

/-- D20, D30: in one TICK the cursor is checked, then, in the right pass only, advanced or held by the rate counter. -/
def Obligations.TickMovesThePlaybackCursor : Prop :=
  ∀ s : State, s.life = .ready →
    ∃ t, exec .tick s = .next t ∧ ∀ c : Fin 8,
      let h := s.chip.channels[c]
      let start := if h.cctrl.getLsbD 0 = true ∨ h.lend.toNat < h.rptr.toNat then h.lstart.toNat % 32768 else h.rptr.toNat
      (h.acc = 0 → t.chip.channels[c].rptr.toNat = (start + 1) % 32768 ∧ t.chip.channels[c].acc = h.accmax) ∧
      (h.acc ≠ 0 → t.chip.channels[c].rptr.toNat = start ∧
        t.chip.channels[c].acc.toNat = h.acc.toNat - 1)

/-- The sample a channel fetches is never past `LEND`, unless it is at the reload address; where the loop is empty and the
cursor is past its end the cursor is pinned there; with `LSTART = LEND = 0` it is always `RAM[0]` (R211, R223, R290). A
cursor below `LSTART` plays on from where it is. -/
def Obligations.FetchIsNeverPastLendUnlessReloaded : Prop :=
  ∀ (ram : Memory) (h : Channel),
    (h.cursorCheck.rptr.toNat ≤ h.lend.toNat ∨ h.cursorCheck.rptr.toNat = h.lstart.toNat % 32768) ∧
    (h.lend.toNat < h.lstart.toNat % 32768 → h.lend.toNat < h.rptr.toNat →
      h.cursorCheck.rptr.toNat = h.lstart.toNat % 32768) ∧
    (h.lstart = 0 → h.lend = 0 → h.cursorCheck.fetch ram = (Memory.read ram 0).toInt * 256)

/-- The read cursor advances once every `ACCMAX + 1` ticks (R43, R213). -/
def Obligations.CursorPeriodIsAccmaxPlusOne : Prop :=
  ∀ (s : State) (c : Fin 8), s.life = .ready →
    s.chip.channels[c].acc = 0 → s.chip.channels[c].cctrl.getLsbD 0 = false →
    s.chip.channels[c].rptr.toNat + 1 ≤ s.chip.channels[c].lend.toNat → s.chip.channels[c].rptr.toNat < 32767 →
    ∃ t, runAll (render (s.chip.channels[c].accmax.toNat + 1)) s = .next t ∧
      t.chip.channels[c].acc = 0 ∧ t.chip.channels[c].rptr.toNat = s.chip.channels[c].rptr.toNat + 1

/-- R218: after any TICK each of the ten coefficients is `MULT * ENT[CE]` of the generator its selector points at, as that
generator stands after the tick; selector `k` drives coefficient `k mod 5` of stage `k div 5` (D22). -/
def Obligations.TickLoadsAllTenCoefficients : Prop :=
  ∀ s : State, s.life = .ready →
    ∃ t, exec .tick s = .next t ∧ ∀ c : Fin 8,
      let h := t.chip.channels[c]
      let out (k : Fin 10) : Int :=
        let e := t.chip.envgs[h.coefsel[k].toNat]'(h.coefsel[k].isLt)
        e.mult.toInt * ((Memory.read e.ent e.ce.toNat).toNat : Int)
      h.stage0.coef.a1.toInt = out 0 ∧ h.stage0.coef.a2.toInt = out 1 ∧ h.stage0.coef.b0.toInt = out 2 ∧
      h.stage0.coef.b1.toInt = out 3 ∧ h.stage0.coef.b2.toInt = out 4 ∧
      h.stage1.coef.a1.toInt = out 5 ∧ h.stage1.coef.a2.toInt = out 6 ∧ h.stage1.coef.b0.toInt = out 7 ∧
      h.stage1.coef.b1.toInt = out 8 ∧ h.stage1.coef.b2.toInt = out 9

/-- R222: the left pass over all channels and then the right pass over all channels give the frame and the channels of the
per-channel procedure `chan_tick`, here written out: the cursor check (R211), the sample (R212), the volumes (R214), the
ten coefficients from the linear outputs (R186, R216, R218), stage 1 fed with stage 0's output (R217), the amplitude from
the exponential output (R187, R219), the descale (R220) and the advance (R213). What one stage call does is
`BiquadClampsAndShiftsItsDelayLine`; the generators after the tick are `TickStepsReferencedGeneratorsOnce`. -/
def Obligations.TickIsTheChannelProcedure : Prop :=
  ∀ s : State, s.life = .ready →
    ∃ (t : State) (outL outR : Fin 8 → Int), exec .tick s = .next t ∧
      t.observed = s.observed ++ [.frame
        ((outL 0 + outL 1 + outL 2 + outL 3 + outL 4 + outL 5 + outL 6 + outL 7) / 8)
        ((outR 0 + outR 1 + outR 2 + outR 3 + outR 4 + outR 5 + outR 6 + outR 7) / 8)] ∧
      ∀ c : Fin 8,
        let h := s.chip.channels[c]
        let gen (sel : EnvgIx) : Envg := t.chip.envgs[sel.toNat]'sel.isLt
        let entry (sel : EnvgIx) : Byte := Memory.read (gen sel).ent (gen sel).ce.toNat
        let rptr : BitVec 15 := BitVec.ofNat 15
          (if h.cctrl.getLsbD 0 = true ∨ h.lend.toNat < h.rptr.toNat then h.lstart.toNat % 32768 else h.rptr.toNat)
        let s0 : Int := (Memory.read s.chip.ram rptr.toNat).toInt * 256
        let coef (k : Fin 10) : BitVec 16 :=
          BitVec.ofInt 16 ((gen h.coefsel[k]).mult.toInt * ((entry h.coefsel[k]).toNat : Int))
        let stage0 : Stage := { h.stage0 with coef := ⟨coef 0, coef 1, coef 2, coef 3, coef 4⟩ }
        let stage1 : Stage := { h.stage1 with coef := ⟨coef 5, coef 6, coef 7, coef 8, coef 9⟩ }
        let l0 := stage0.filter s.cfg .left (s0 * h.voll.toInt)
        let l1 := stage1.filter s.cfg .left l0.1
        let r0 := l0.2.filter s.cfg .right (s0 * h.volr.toInt)
        let r1 := l1.2.filter s.cfg .right r0.1
        let amp : Int := (gen h.ampsel).mult.toInt *
          ((s.cfg.expTable[(entry h.ampsel).toNat]'(entry h.ampsel).isLt).toNat : Int)
        outL c = l1.1 * amp / ((2 ^ s.cfg.ampShift : Nat) : Int) ∧
        outR c = r1.1 * amp / ((2 ^ s.cfg.ampShift : Nat) : Int) ∧
        t.chip.channels[c] = { h with
          cctrl := 0
          rptr := if h.acc = 0 then rptr + 1 else rptr
          acc := if h.acc = 0 then h.accmax else h.acc - 1
          stage0 := r0.2
          stage1 := r1.2 }

/-- D16, D18: with the default `AMP_SHIFT` every frame lies in `-32640..32639`, so it always fits 16 bits. -/
def Obligations.FramesFitSixteenBits : Prop :=
  ∀ s : State, s.life = .ready → s.cfg.ampShift = 15 →
    ∃ t l r, exec .tick s = .next t ∧ t.observed = s.observed ++ [.frame l r] ∧
      -32640 ≤ l ∧ l ≤ 32639 ∧ -32640 ≤ r ∧ r ≤ 32639

/-- R273: while every `MULT` is 0, as after INIT, every TICK returns `(0, 0)`, for any number of ticks. -/
def Obligations.SilentUntilAMultiplierIsSet : Prop :=
  ∀ (s : State) (n : Nat), s.life = .ready → (∀ g : Fin 16, s.chip.envgs[g].mult = 0) →
    ∃ t, runAll (render n) s = .next t ∧ t.observed = s.observed ++ List.replicate n (.frame 0 0)

/-- R50: the right side never reaches the left. Two chips that differ in right volumes and right delay lines only give the
same left sample, and still differ in no more than right volumes and right delay lines after the tick; their right samples
may differ. -/
def Obligations.RightSideNeverReachesTheLeft : Prop :=
  ∀ s s' : State, s.life = .ready → s'.life = .ready → s.cfg = s'.cfg → s.chip.leftPart = s'.chip.leftPart →
    ∃ t t' l r r', exec .tick s = .next t ∧ exec .tick s' = .next t' ∧
      t.observed = s.observed ++ [.frame l r] ∧ t'.observed = s'.observed ++ [.frame l r'] ∧
      t.chip.leftPart = t'.chip.leftPart

/-- R240, R241, R8: `render(n)` always completes and returns exactly `n` frames after what was observed before; afterwards
`CONTROL` is 0, but rendering no frame changes nothing at all, `CONTROL` included. -/
def Obligations.RenderReturnsExactlyItsFrames : Prop :=
  ∀ (n : Nat) (s : State), s.life = .ready →
    ∃ (t : State) (frames : List (Int × Int)), runAll (render n) s = .next t ∧ frames.length = n ∧
      t.observed = s.observed ++ frames.map (fun f => .frame f.1 f.2) ∧
      t.life = .ready ∧ t.cfg = s.cfg ∧ t.pending = s.pending ∧
      t.chip.control = (if n = 0 then s.chip.control else 0) ∧ (n = 0 → t = s)

/-! ## Pseudo-operations -/

/-- R95: from any ready state each pseudo-operation stages its pair and forwards it, and does nothing else. -/
def Obligations.PseudoOperationsForwardTheirPair : Prop :=
  ∀ (s : State) (m sub : Half) (cm v : Byte), s.life = .ready → s.cfg.subregSrc = .wptr →
    runAll (wenvg m sub v) s = exec (decodeSube s.cfg sub v)
      { s with chip := { s.chip with control := 0x10, envsel := m, wptr := sub, wdata := v.setWidth 16 } } ∧
    runAll (wchan cm sub v) s = exec (decodeSubc s.cfg sub v)
      { s with chip := { s.chip with control := 0x20, chsel := cm, wptr := sub, wdata := v.setWidth 16 } } ∧
    runAll (wram sub v) s = exec .ctlFwdRam
      { s with chip := { s.chip with control := 0x80, wptr := sub, wdata := v.setWidth 16 } }

/-! ## Words and steps -/

/-- Words written out from the formats R81, R83, R84 and the opcode table decode to the operations they stand for, under
the default parameters. -/
def Obligations.WrittenWordsDecode : Prop :=
  decode Config.default (.hop 0x0000480) = .ok [.pokeWptrLo 0x80] ∧
  decode Config.default (.hop 0x0000016) = .ok [.pokeControl 0x16] ∧
  decode Config.default (.hop 0x0FFFF00) = .ok [.pokeUnmapped 0xFFFF 0x00] ∧
  decode Config.default (.hop 0x1001700) = .ok [.peekChctrl 7] ∧
  decode Config.default (.hop 0x1002F00) = .ok [.peekEnvctrl 15] ∧
  decode Config.default (.hop 0x2000000) = .ok [.tick] ∧
  decode Config.default (.hop 0x5000000) = .error (.notAnOperation 5) ∧
  decode Config.default (.ctl 0xB0) = .ok [.ctlFwdEnvg, .ctlFwdChan, .ctlFwdRam] ∧
  decode Config.default (.sube 0x0085C0) = .ok [.eEntry 5 0xC0] ∧
  decode Config.default (.subc 0x000921) = .ok [.cCoefsel2 0x21] ∧
  decode Config.default (.subc 0x001401) = .ok [.cLendHi 0x01]

/-- Decoding gives back every well-formed operation, whatever its operands, for every chip whose windows are disjoint and
for every sub-register maps. -/
def Obligations.DecodeOfEncode : Prop :=
  ∀ (cfg : Config) (i : Instr), cfg.windowsDisjoint → WellFormed cfg i = true → decode cfg (encode cfg i) = .ok [i]

/-- Whatever the decoder answers, for any word, is well formed: a default row is chosen only where no other row
matches. -/
def Obligations.DecodedOperationsAreWellFormed : Prop :=
  ∀ (cfg : Config) (w : OpWord) (is : List Instr), decode cfg w = .ok is → ∀ i ∈ is, WellFormed cfg i = true

/-- D24: a word is refused exactly when it is a HOP word of kind 5, 6 or 7, and a step on it is refused by name. -/
def Obligations.OnlyHopKindsFiveToSevenAreRefused : Prop :=
  (∀ (cfg : Config) (w : OpWord), (∃ e, decode cfg w = .error e) ↔ ∃ h : BitVec 27, w = .hop h ∧ 5 ≤ h.toNat / 2 ^ 24) ∧
  ∀ (s : State) (h : BitVec 27) (rest : List OpWord), s.pending = .hop h :: rest → 5 ≤ h.toNat / 2 ^ 24 →
    step s = .refused (.notAnOperation (BitVec.ofNat 3 (h.toNat / 2 ^ 24)))

/-- A step runs the operation its word decodes to, on the state with that word taken off (log 1); a CTL byte by itself runs
the operation of each of its set bits in turn (log 7). -/
def Obligations.StepRunsTheDecodedOperation : Prop :=
  ∀ (s : State) (w : OpWord) (rest : List OpWord), s.pending = w :: rest →
    (∀ i, decode s.cfg w = .ok [i] → step s = exec i { s with pending := rest }) ∧
    (∀ is, decode s.cfg w = .ok is → step s = runAll is { s with pending := rest })

/-- The model's choice (log 1): with nothing to issue the chip is idle and keeps all its state. -/
def Obligations.IdleChipKeepsItsState : Prop :=
  ∀ s : State, s.pending = [] → step s = .next s

/-- The machine's invariant holds at reset: memories in canonical form, no generator marked, parameters legal, delays in
range. -/
def Obligations.ResetIsAtRest : Prop := State.reset.Inv

/-- Every step keeps the machine's invariant (R38, R50, R185, R198, log 4, log 11). -/
def Obligations.StepKeepsTheInvariant : Prop :=
  ∀ s t : State, s.Inv → step s = .next t → t.Inv

/-- R8: the parameters are fixed for the life of one chip; what has been observed stays observed; a step takes at most the
first word off. -/
def Obligations.StepKeepsParametersAndHistory : Prop :=
  ∀ s t : State, step s = .next t →
    t.cfg = s.cfg ∧ (∃ new, t.observed = s.observed ++ new) ∧ t.pending = s.pending.tail
end

