-- ==== Sys2Proof/Laws/Decode.lean ====
section
/-! SUPPORT. The fields of the words, what a word of each format decodes to, and what the sub-register maps give. -/

namespace Sys2Proof

/-! ## Fields of a word -/

@[simp] theorem hop_kind (k : BitVec 3) (a : Half) (v : Byte) : (k ++ a ++ v).extractLsb' 24 3 = k := by
  ext i hi
  simp
  grind

@[simp] theorem hop_addr (k : BitVec 3) (a : Half) (v : Byte) : (k ++ a ++ v).extractLsb' 8 16 = a := by
  ext i hi
  simp
  grind

@[simp] theorem hop_val (k : BitVec 3) (a : Half) (v : Byte) : (k ++ a ++ v).extractLsb' 0 8 = v := by
  ext i hi
  simp
  grind

@[simp] theorem subWord_sub (a : Half) (v : Byte) : (subWord a v).extractLsb' 8 16 = a := by
  ext i hi
  simp [subWord]
  grind

@[simp] theorem subWord_val (a : Half) (v : Byte) : (subWord a v).extractLsb' 0 8 = v := by
  ext i hi
  simp [subWord]
  grind

/-- A HOP word decodes by its three fields (R81, R90). -/
theorem decode_hopWord (cfg : Config) (k : BitVec 3) (a : Half) (v : Byte) :
    decode cfg (hopWord k a v) =
      (show Except DecodeError Instr from
        if k = 0 then .ok (decodePoke a v)
        else if k = 1 then .ok (decodePeek cfg a)
        else if k = 2 then .ok .tick
        else if k = 3 then .ok .init
        else if k = 4 then .ok .destroy
        else .error (.notAnOperation k)).map ([·]) := by
  simp only [decode, hopWord, decodeHop, hop_kind, hop_addr, hop_val]

/-- A SUBE word decodes by its two fields (R84, R90). -/
theorem decode_subeWord (cfg : Config) (a : Half) (v : Byte) :
    decode cfg (.sube (subWord a v)) = .ok [decodeSube cfg a v] := by
  simp only [decode, subWord_sub, subWord_val]

/-- A SUBC word decodes by its two fields (R84, R90). -/
theorem decode_subcWord (cfg : Config) (a : Half) (v : Byte) :
    decode cfg (.subc (subWord a v)) = .ok [decodeSubc cfg a v] := by
  simp only [decode, subWord_sub, subWord_val]

/-! ## The sub-register maps -/

/-- A number that names something has a row. -/
theorem rowOf_mem {α : Type} {z : α} {rows : List (Half × α)} {sub : Half} (h : rowOf z rows sub ≠ z) :
    ∃ r ∈ rows, r.1 = sub := by
  induction rows with
  | nil => exact absurd rfl h
  | cons r rows ih =>
    by_cases hr : r.1 = sub
    · exact ⟨r, List.mem_cons_self, hr⟩
    · obtain ⟨q, hq, hs⟩ := ih (by simpa only [rowOf, hr, if_false] using h)
      exact ⟨q, List.mem_cons_of_mem _ hq, hs⟩

/-- The number an envelope map gives for a field names that field. -/
theorem EnvgSubregMap.field_number {m : EnvgSubregMap} {f : EnvgField} (h : (m.number f).isSome = true) :
    m.field ((m.number f).getD 0) = f := by
  unfold EnvgSubregMap.number at *
  cases hr : m.rows.find? (fun r => decide (m.field r.1 = f)) with
  | none => simp [hr] at h
  | some r => simpa using List.find?_some hr

/-- A field that some number names, no entry, has a number in the map's rows. -/
theorem EnvgSubregMap.number_isSome {m : EnvgSubregMap} {f : EnvgField} {sub : Half} (h : m.field sub = f)
    (hr : f ≠ .reserved) (he : ∀ i, f ≠ .entry i) : (m.number f).isSome = true := by
  have hs : ¬ (128 ≤ sub.toNat ∧ sub.toNat ≤ 255) := fun hs => he _ (by rw [← h, EnvgSubregMap.field, if_pos hs])
  have hq : rowOf .reserved m.rows sub ≠ .reserved := by
    rw [EnvgSubregMap.field, if_neg hs] at h
    rwa [h]
  obtain ⟨r, hm, rfl⟩ := rowOf_mem hq
  simpa [EnvgSubregMap.number] using ⟨r.1, ⟨r.2, hm⟩, h⟩

/-- The entries stand at 128..255 in every map (R137). -/
theorem EnvgSubregMap.field_entry (m : EnvgSubregMap) (i : BitVec 7) :
    m.field (BitVec.ofNat 16 (128 + i.toNat)) = .entry i := by
  have hi := i.isLt
  have ht : (BitVec.ofNat 16 (128 + i.toNat)).toNat = 128 + i.toNat := by
    simp
    omega
  rw [EnvgSubregMap.field, if_pos (by omega), ht]
  simp

/-- The number a channel map gives for a field names that field. -/
theorem ChSubregMap.field_number {m : ChSubregMap} {f : ChField} (h : (m.number f).isSome = true) :
    m.field ((m.number f).getD 0) = f := by
  unfold ChSubregMap.number at *
  cases hr : m.rows.find? (fun r => decide (m.field r.1 = f)) with
  | none => simp [hr] at h
  | some r => simpa using List.find?_some hr

/-- A field that some number names, none of those the source fixes, has a number in the map's rows. -/
theorem ChSubregMap.number_isSome {m : ChSubregMap} {f : ChField} {sub : Half} (h : m.field sub = f)
    (hr : f ≠ .reserved) (hc : f ≠ .ctrl) (hv : f ≠ .voll) (hk : ∀ k, f ≠ .coefsel k) :
    (m.number f).isSome = true := by
  have h0 : ¬ sub = 0 := fun e => hc (by rw [← h, ChSubregMap.field, if_pos e])
  have h2 : ¬ sub = 2 := fun e => hv (by rw [← h, ChSubregMap.field, if_neg h0, if_pos e])
  have h7 : ¬ (7 ≤ sub.toNat ∧ sub.toNat - 7 < 10) := fun e =>
    hk _ (by rw [← h, ChSubregMap.field, if_neg h0, if_neg h2, dif_pos e])
  have hq : rowOf .reserved m.rows sub ≠ .reserved := by
    rw [ChSubregMap.field, if_neg h0, if_neg h2, dif_neg h7] at h
    rwa [h]
  obtain ⟨r, hm, rfl⟩ := rowOf_mem hq
  simpa [ChSubregMap.number] using ⟨r.1, ⟨r.2, hm⟩, h⟩

/-- The ten coefficient selectors stand at 7..16 in every map (R154). -/
theorem ChSubregMap.field_coefsel (m : ChSubregMap) (k : Fin 10) :
    m.field (BitVec.ofNat 16 (7 + k.val)) = .coefsel k := by
  have hk := k.isLt
  have ht : (BitVec.ofNat 16 (7 + k.val)).toNat = 7 + k.val := by
    simp
    omega
  have ne : ∀ x : Half, (x.toNat < 7 ∨ 16 < x.toNat) → ¬ BitVec.ofNat 16 (7 + k.val) = x := by
    rintro x hx rfl
    omega
  unfold ChSubregMap.field
  rw [if_neg (ne 0 (by decide)), if_neg (ne 2 (by decide)), dif_pos (by omega)]
  simp only [ht, Nat.add_sub_cancel_left]

end Sys2Proof
end

