-- ==== Sys2Proof/Laws/Memory.lean ====
section
/-! SUPPORT. The laws of a byte memory: a read after a write, the canonical form kept by a write, and two canonical
memories that read alike are equal. -/

namespace Sys2Proof.Machine

@[simp] theorem Memory.read_nil (a : Nat) : Memory.read [] a = Memory.unlisted := rfl

theorem Memory.read_cons (k : Nat) (v : Byte) (m : Memory) (a : Nat) :
    Memory.read ((k, v) :: m) a = if k = a then v else Memory.read m a := rfl

theorem Memory.write_cons (k : Nat) (w : Byte) (m : Memory) (a : Nat) (v : Byte) :
    Memory.write ((k, w) :: m) a v =
      if a < k then if v = Memory.unlisted then (k, w) :: m else (a, v) :: (k, w) :: m
      else if a = k then if v = Memory.unlisted then m else (a, v) :: m
      else (k, w) :: Memory.write m a v := rfl

theorem Memory.wfFrom_cons (size lo k : Nat) (v : Byte) (m : Memory) :
    Memory.wfFrom size lo ((k, v) :: m) = true ↔
      (lo ≤ k ∧ k < size ∧ v ≠ Memory.unlisted) ∧ Memory.wfFrom size (k + 1) m = true := by
  simp [Memory.wfFrom]

/-- A lower bound may be lowered. -/
theorem Memory.wfFrom_mono {size lo lo' : Nat} {m : Memory} (h : lo' ≤ lo) (hm : Memory.wfFrom size lo m = true) :
    Memory.wfFrom size lo' m = true := by
  cases m with
  | nil => rfl
  | cons p m =>
    obtain ⟨k, v⟩ := p
    rw [Memory.wfFrom_cons] at hm ⊢
    exact ⟨⟨le_trans h hm.1.1, hm.1.2⟩, hm.2⟩

/-- Below the bound no cell is listed. -/
theorem Memory.read_below {size lo a : Nat} {m : Memory} (hm : Memory.wfFrom size lo m = true) (ha : a < lo) :
    Memory.read m a = Memory.unlisted := by
  induction m generalizing lo with
  | nil => rfl
  | cons p m ih =>
    obtain ⟨k, v⟩ := p
    rw [Memory.wfFrom_cons] at hm
    rw [Memory.read_cons, if_neg (by omega)]
    exact ih hm.2 (by omega)

/-- Outside the memory every address reads as unlisted. -/
theorem Memory.read_above {size lo a : Nat} {m : Memory} (hm : Memory.wfFrom size lo m = true) (ha : size ≤ a) :
    Memory.read m a = Memory.unlisted := by
  induction m generalizing lo with
  | nil => rfl
  | cons p m ih =>
    obtain ⟨k, v⟩ := p
    rw [Memory.wfFrom_cons] at hm
    rw [Memory.read_cons, if_neg (by omega)]
    exact ih hm.2

/-- What every address reads after a write. -/
theorem Memory.read_write_from {size lo : Nat} {m : Memory} (hm : Memory.wfFrom size lo m = true) (a b : Nat) (v : Byte) :
    Memory.read (Memory.write m a v) b = if a = b then v else Memory.read m b := by
  induction m generalizing lo with
  | nil =>
    by_cases hv : v = Memory.unlisted
    · simp [Memory.write, hv]
    · simp [Memory.write, hv, Memory.read_cons]
  | cons p m ih =>
    obtain ⟨k, w⟩ := p
    have h := (Memory.wfFrom_cons size lo k w m).mp hm
    have hbelow : a ≤ k → Memory.read m a = Memory.unlisted := fun hak =>
      Memory.read_below h.2 (Nat.lt_succ_of_le hak)
    rw [Memory.write_cons]
    by_cases hlt : a < k
    · by_cases hv : v = Memory.unlisted
      · rw [if_pos hlt, if_pos hv, Memory.read_cons]
        by_cases hab : a = b
        · subst hab
          rw [if_neg (by omega), hbelow (by omega), if_pos rfl, hv]
        · rw [if_neg hab]
      · rw [if_pos hlt, if_neg hv, Memory.read_cons]
    · rw [if_neg hlt]
      by_cases heq : a = k
      · subst heq
        rw [if_pos rfl, Memory.read_cons]
        by_cases hv : v = Memory.unlisted
        · rw [if_pos hv]
          by_cases hab : a = b
          · subst hab
            rw [if_pos rfl, hbelow le_rfl, hv]
          · rw [if_neg hab, if_neg hab]
        · rw [if_neg hv, Memory.read_cons]
          by_cases hab : a = b
          · rw [if_pos hab, if_pos hab]
          · rw [if_neg hab, if_neg hab, if_neg hab]
      · rw [if_neg heq, Memory.read_cons, Memory.read_cons, ih h.2]
        by_cases hab : a = b
        · subst hab
          rw [if_neg (Ne.symm heq), if_pos rfl, if_pos rfl]
        · rw [if_neg hab, if_neg hab]

/-- A read after a write, on a canonical memory. -/
theorem Memory.read_write {size : Nat} {m : Memory} (hm : Memory.wf size m = true) (a b : Nat) (v : Byte) :
    Memory.read (Memory.write m a v) b = if a = b then v else Memory.read m b :=
  Memory.read_write_from hm a b v

theorem Memory.wfFrom_write {size lo : Nat} {m : Memory} (hm : Memory.wfFrom size lo m = true) {a : Nat} (ha : a < size)
    (hlo : lo ≤ a) (v : Byte) : Memory.wfFrom size lo (Memory.write m a v) = true := by
  induction m generalizing lo with
  | nil =>
    by_cases hv : v = Memory.unlisted
    · simp [Memory.write, hv, Memory.wfFrom]
    · simp [Memory.write, hv, Memory.wfFrom, ha, hlo]
  | cons p m ih =>
    obtain ⟨k, w⟩ := p
    have h := (Memory.wfFrom_cons size lo k w m).mp hm
    rw [Memory.write_cons]
    split_ifs with h1 hv h2 hv
    · exact hm
    · rw [Memory.wfFrom_cons, Memory.wfFrom_cons]
      exact ⟨⟨hlo, ha, hv⟩, ⟨h1, h.1.2⟩, h.2⟩
    · exact Memory.wfFrom_mono (by omega) h.2
    · subst h2
      rw [Memory.wfFrom_cons]
      exact ⟨⟨hlo, ha, hv⟩, h.2⟩
    · rw [Memory.wfFrom_cons]
      exact ⟨h.1, ih h.2 (by omega)⟩

/-- A write inside the memory keeps the canonical form. -/
theorem Memory.wf_write {size : Nat} {m : Memory} (hm : Memory.wf size m = true) {a : Nat} (ha : a < size) (v : Byte) :
    Memory.wf size (Memory.write m a v) = true :=
  Memory.wfFrom_write hm ha (Nat.zero_le a) v

@[simp] theorem Memory.wf_nil (size : Nat) : Memory.wf size [] = true := rfl

theorem Memory.ext_from {size lo : Nat} {m n : Memory} (hm : Memory.wfFrom size lo m = true)
    (hn : Memory.wfFrom size lo n = true) (h : ∀ a, Memory.read m a = Memory.read n a) : m = n := by
  induction m generalizing lo n with
  | nil =>
    cases n with
    | nil => rfl
    | cons q n =>
      obtain ⟨k, v⟩ := q
      have hq := (Memory.wfFrom_cons size lo k v n).mp hn
      have := h k
      rw [Memory.read_cons, if_pos rfl] at this
      exact absurd this.symm hq.1.2.2
  | cons p m ih =>
    obtain ⟨k, v⟩ := p
    have hp := (Memory.wfFrom_cons size lo k v m).mp hm
    cases n with
    | nil =>
      have := h k
      rw [Memory.read_cons, if_pos rfl] at this
      exact absurd this hp.1.2.2
    | cons q n =>
      obtain ⟨l, w⟩ := q
      have hq := (Memory.wfFrom_cons size lo l w n).mp hn
      have hkl : k = l := by
        rcases Nat.lt_trichotomy k l with hlt | heq | hgt
        · have := h k
          rw [Memory.read_cons, if_pos rfl, Memory.read_cons, if_neg (by omega),
            Memory.read_below hq.2 (by omega)] at this
          exact absurd this hp.1.2.2
        · exact heq
        · have := h l
          rw [Memory.read_cons, if_neg (by omega), Memory.read_below hp.2 (by omega), Memory.read_cons,
            if_pos rfl] at this
          exact absurd this.symm hq.1.2.2
      subst hkl
      have hvw : v = w := by
        have := h k
        rwa [Memory.read_cons, if_pos rfl, Memory.read_cons, if_pos rfl] at this
      subst hvw
      rw [ih hp.2 hq.2 fun a => ?_]
      by_cases hak : a ≤ k
      · rw [Memory.read_below hp.2 (by omega), Memory.read_below hq.2 (by omega)]
      · have := h a
        rwa [Memory.read_cons, if_neg (by omega), Memory.read_cons, if_neg (by omega)] at this

/-- Canonical memories that read alike at every address are equal data. -/
theorem Memory.ext {size : Nat} {m n : Memory} (hm : Memory.wf size m = true) (hn : Memory.wf size n = true)
    (h : ∀ a, Memory.read m a = Memory.read n a) : m = n :=
  Memory.ext_from hm hn h

end Sys2Proof.Machine
end

