-- ==== Sys2Proof/Laws/State.lean ====
section
/-! SUPPORT. One lemma for each field and each update of a state, a chip, a generator or a channel, true by `rfl`, so that
no proof unfolds a record update. -/

namespace Sys2Proof.Machine

/-! ## Chip -/

@[simp] theorem Chip.setControl_control (v : Byte) (c : Chip) : (c.setControl v).control = v := rfl
@[simp] theorem Chip.setControl_chsel (v : Byte) (c : Chip) : (c.setControl v).chsel = c.chsel := rfl
@[simp] theorem Chip.setControl_envsel (v : Byte) (c : Chip) : (c.setControl v).envsel = c.envsel := rfl
@[simp] theorem Chip.setControl_wptr (v : Byte) (c : Chip) : (c.setControl v).wptr = c.wptr := rfl
@[simp] theorem Chip.setControl_wdata (v : Byte) (c : Chip) : (c.setControl v).wdata = c.wdata := rfl
@[simp] theorem Chip.setControl_ram (v : Byte) (c : Chip) : (c.setControl v).ram = c.ram := rfl
@[simp] theorem Chip.setControl_envgs (v : Byte) (c : Chip) : (c.setControl v).envgs = c.envgs := rfl
@[simp] theorem Chip.setControl_channels (v : Byte) (c : Chip) : (c.setControl v).channels = c.channels := rfl
@[simp] theorem Chip.setChsel_control (v : Byte) (c : Chip) : (c.setChsel v).control = c.control := rfl
@[simp] theorem Chip.setChsel_chsel (v : Byte) (c : Chip) : (c.setChsel v).chsel = v := rfl
@[simp] theorem Chip.setChsel_envsel (v : Byte) (c : Chip) : (c.setChsel v).envsel = c.envsel := rfl
@[simp] theorem Chip.setChsel_wptr (v : Byte) (c : Chip) : (c.setChsel v).wptr = c.wptr := rfl
@[simp] theorem Chip.setChsel_wdata (v : Byte) (c : Chip) : (c.setChsel v).wdata = c.wdata := rfl
@[simp] theorem Chip.setChsel_ram (v : Byte) (c : Chip) : (c.setChsel v).ram = c.ram := rfl
@[simp] theorem Chip.setChsel_envgs (v : Byte) (c : Chip) : (c.setChsel v).envgs = c.envgs := rfl
@[simp] theorem Chip.setChsel_channels (v : Byte) (c : Chip) : (c.setChsel v).channels = c.channels := rfl
@[simp] theorem Chip.setEnvsel_control (v : Half) (c : Chip) : (c.setEnvsel v).control = c.control := rfl
@[simp] theorem Chip.setEnvsel_chsel (v : Half) (c : Chip) : (c.setEnvsel v).chsel = c.chsel := rfl
@[simp] theorem Chip.setEnvsel_envsel (v : Half) (c : Chip) : (c.setEnvsel v).envsel = v := rfl
@[simp] theorem Chip.setEnvsel_wptr (v : Half) (c : Chip) : (c.setEnvsel v).wptr = c.wptr := rfl
@[simp] theorem Chip.setEnvsel_wdata (v : Half) (c : Chip) : (c.setEnvsel v).wdata = c.wdata := rfl
@[simp] theorem Chip.setEnvsel_ram (v : Half) (c : Chip) : (c.setEnvsel v).ram = c.ram := rfl
@[simp] theorem Chip.setEnvsel_envgs (v : Half) (c : Chip) : (c.setEnvsel v).envgs = c.envgs := rfl
@[simp] theorem Chip.setEnvsel_channels (v : Half) (c : Chip) : (c.setEnvsel v).channels = c.channels := rfl
@[simp] theorem Chip.setWptr_control (v : Half) (c : Chip) : (c.setWptr v).control = c.control := rfl
@[simp] theorem Chip.setWptr_chsel (v : Half) (c : Chip) : (c.setWptr v).chsel = c.chsel := rfl
@[simp] theorem Chip.setWptr_envsel (v : Half) (c : Chip) : (c.setWptr v).envsel = c.envsel := rfl
@[simp] theorem Chip.setWptr_wptr (v : Half) (c : Chip) : (c.setWptr v).wptr = v := rfl
@[simp] theorem Chip.setWptr_wdata (v : Half) (c : Chip) : (c.setWptr v).wdata = c.wdata := rfl
@[simp] theorem Chip.setWptr_ram (v : Half) (c : Chip) : (c.setWptr v).ram = c.ram := rfl
@[simp] theorem Chip.setWptr_envgs (v : Half) (c : Chip) : (c.setWptr v).envgs = c.envgs := rfl
@[simp] theorem Chip.setWptr_channels (v : Half) (c : Chip) : (c.setWptr v).channels = c.channels := rfl
@[simp] theorem Chip.setWdata_control (v : Half) (c : Chip) : (c.setWdata v).control = c.control := rfl
@[simp] theorem Chip.setWdata_chsel (v : Half) (c : Chip) : (c.setWdata v).chsel = c.chsel := rfl
@[simp] theorem Chip.setWdata_envsel (v : Half) (c : Chip) : (c.setWdata v).envsel = c.envsel := rfl
@[simp] theorem Chip.setWdata_wptr (v : Half) (c : Chip) : (c.setWdata v).wptr = c.wptr := rfl
@[simp] theorem Chip.setWdata_wdata (v : Half) (c : Chip) : (c.setWdata v).wdata = v := rfl
@[simp] theorem Chip.setWdata_ram (v : Half) (c : Chip) : (c.setWdata v).ram = c.ram := rfl
@[simp] theorem Chip.setWdata_envgs (v : Half) (c : Chip) : (c.setWdata v).envgs = c.envgs := rfl
@[simp] theorem Chip.setWdata_channels (v : Half) (c : Chip) : (c.setWdata v).channels = c.channels := rfl
@[simp] theorem Chip.setRam_control (v : Memory) (c : Chip) : (c.setRam v).control = c.control := rfl
@[simp] theorem Chip.setRam_chsel (v : Memory) (c : Chip) : (c.setRam v).chsel = c.chsel := rfl
@[simp] theorem Chip.setRam_envsel (v : Memory) (c : Chip) : (c.setRam v).envsel = c.envsel := rfl
@[simp] theorem Chip.setRam_wptr (v : Memory) (c : Chip) : (c.setRam v).wptr = c.wptr := rfl
@[simp] theorem Chip.setRam_wdata (v : Memory) (c : Chip) : (c.setRam v).wdata = c.wdata := rfl
@[simp] theorem Chip.setRam_ram (v : Memory) (c : Chip) : (c.setRam v).ram = v := rfl
@[simp] theorem Chip.setRam_envgs (v : Memory) (c : Chip) : (c.setRam v).envgs = c.envgs := rfl
@[simp] theorem Chip.setRam_channels (v : Memory) (c : Chip) : (c.setRam v).channels = c.channels := rfl
@[simp] theorem Chip.setEnvgs_control (v : Vector Envg 16) (c : Chip) : (c.setEnvgs v).control = c.control := rfl
@[simp] theorem Chip.setEnvgs_chsel (v : Vector Envg 16) (c : Chip) : (c.setEnvgs v).chsel = c.chsel := rfl
@[simp] theorem Chip.setEnvgs_envsel (v : Vector Envg 16) (c : Chip) : (c.setEnvgs v).envsel = c.envsel := rfl
@[simp] theorem Chip.setEnvgs_wptr (v : Vector Envg 16) (c : Chip) : (c.setEnvgs v).wptr = c.wptr := rfl
@[simp] theorem Chip.setEnvgs_wdata (v : Vector Envg 16) (c : Chip) : (c.setEnvgs v).wdata = c.wdata := rfl
@[simp] theorem Chip.setEnvgs_ram (v : Vector Envg 16) (c : Chip) : (c.setEnvgs v).ram = c.ram := rfl
@[simp] theorem Chip.setEnvgs_envgs (v : Vector Envg 16) (c : Chip) : (c.setEnvgs v).envgs = v := rfl
@[simp] theorem Chip.setEnvgs_channels (v : Vector Envg 16) (c : Chip) : (c.setEnvgs v).channels = c.channels := rfl
@[simp] theorem Chip.setChannels_control (v : Vector Channel 8) (c : Chip) : (c.setChannels v).control = c.control := rfl
@[simp] theorem Chip.setChannels_chsel (v : Vector Channel 8) (c : Chip) : (c.setChannels v).chsel = c.chsel := rfl
@[simp] theorem Chip.setChannels_envsel (v : Vector Channel 8) (c : Chip) : (c.setChannels v).envsel = c.envsel := rfl
@[simp] theorem Chip.setChannels_wptr (v : Vector Channel 8) (c : Chip) : (c.setChannels v).wptr = c.wptr := rfl
@[simp] theorem Chip.setChannels_wdata (v : Vector Channel 8) (c : Chip) : (c.setChannels v).wdata = c.wdata := rfl
@[simp] theorem Chip.setChannels_ram (v : Vector Channel 8) (c : Chip) : (c.setChannels v).ram = c.ram := rfl
@[simp] theorem Chip.setChannels_envgs (v : Vector Channel 8) (c : Chip) : (c.setChannels v).envgs = c.envgs := rfl
@[simp] theorem Chip.setChannels_channels (v : Vector Channel 8) (c : Chip) : (c.setChannels v).channels = v := rfl

/-! ## State -/

@[simp] theorem State.withChip_chip (s : State) (x : Chip) : (s.withChip x).chip = x := rfl
@[simp] theorem State.withChip_life (s : State) (x : Chip) : (s.withChip x).life = s.life := rfl
@[simp] theorem State.withChip_cfg (s : State) (x : Chip) : (s.withChip x).cfg = s.cfg := rfl
@[simp] theorem State.withChip_pending (s : State) (x : Chip) : (s.withChip x).pending = s.pending := rfl
@[simp] theorem State.withChip_observed (s : State) (x : Chip) : (s.withChip x).observed = s.observed := rfl
@[simp] theorem State.withLife_chip (s : State) (x : Life) : (s.withLife x).chip = s.chip := rfl
@[simp] theorem State.withLife_life (s : State) (x : Life) : (s.withLife x).life = x := rfl
@[simp] theorem State.withLife_cfg (s : State) (x : Life) : (s.withLife x).cfg = s.cfg := rfl
@[simp] theorem State.withLife_pending (s : State) (x : Life) : (s.withLife x).pending = s.pending := rfl
@[simp] theorem State.withLife_observed (s : State) (x : Life) : (s.withLife x).observed = s.observed := rfl
@[simp] theorem State.withPending_chip (s : State) (x : List OpWord) : (s.withPending x).chip = s.chip := rfl
@[simp] theorem State.withPending_life (s : State) (x : List OpWord) : (s.withPending x).life = s.life := rfl
@[simp] theorem State.withPending_cfg (s : State) (x : List OpWord) : (s.withPending x).cfg = s.cfg := rfl
@[simp] theorem State.withPending_pending (s : State) (x : List OpWord) : (s.withPending x).pending = x := rfl
@[simp] theorem State.withPending_observed (s : State) (x : List OpWord) : (s.withPending x).observed = s.observed := rfl
@[simp] theorem State.observe_chip (s : State) (x : Observation) : (s.observe x).chip = s.chip := rfl
@[simp] theorem State.observe_life (s : State) (x : Observation) : (s.observe x).life = s.life := rfl
@[simp] theorem State.observe_cfg (s : State) (x : Observation) : (s.observe x).cfg = s.cfg := rfl
@[simp] theorem State.observe_pending (s : State) (x : Observation) : (s.observe x).pending = s.pending := rfl
@[simp] theorem State.observe_observed (s : State) (x : Observation) : (s.observe x).observed = s.observed ++ [x] := rfl

/-! ## Envelope generators -/

@[simp] theorem Envg.writeCtrl_ectrl (v : Byte) (e : Envg) : (e.writeCtrl v).ectrl = v := rfl
@[simp] theorem Envg.writeCtrl_mult (v : Byte) (e : Envg) : (e.writeCtrl v).mult = e.mult := rfl
@[simp] theorem Envg.writeCtrl_hold (v : Byte) (e : Envg) : (e.writeCtrl v).hold = e.hold := rfl
@[simp] theorem Envg.writeCtrl_stride (v : Byte) (e : Envg) : (e.writeCtrl v).stride = e.stride := rfl
@[simp] theorem Envg.writeCtrl_ent (v : Byte) (e : Envg) : (e.writeCtrl v).ent = e.ent := rfl
@[simp] theorem Envg.writeCtrl_ce (v : Byte) (e : Envg) : (e.writeCtrl v).ce = e.ce := rfl
@[simp] theorem Envg.writeCtrl_cs (v : Byte) (e : Envg) : (e.writeCtrl v).cs = e.cs := rfl
@[simp] theorem Envg.writeCtrl_sq (v : Byte) (e : Envg) : (e.writeCtrl v).sq = e.sq := rfl
@[simp] theorem Envg.writeMult_ectrl (v : Byte) (e : Envg) : (e.writeMult v).ectrl = e.ectrl := rfl
@[simp] theorem Envg.writeMult_mult (v : Byte) (e : Envg) : (e.writeMult v).mult = v := rfl
@[simp] theorem Envg.writeMult_hold (v : Byte) (e : Envg) : (e.writeMult v).hold = e.hold := rfl
@[simp] theorem Envg.writeMult_stride (v : Byte) (e : Envg) : (e.writeMult v).stride = e.stride := rfl
@[simp] theorem Envg.writeMult_ent (v : Byte) (e : Envg) : (e.writeMult v).ent = e.ent := rfl
@[simp] theorem Envg.writeMult_ce (v : Byte) (e : Envg) : (e.writeMult v).ce = e.ce := rfl
@[simp] theorem Envg.writeMult_cs (v : Byte) (e : Envg) : (e.writeMult v).cs = e.cs := rfl
@[simp] theorem Envg.writeMult_sq (v : Byte) (e : Envg) : (e.writeMult v).sq = e.sq := rfl
@[simp] theorem Envg.writeHold_ectrl (v : Byte) (e : Envg) : (e.writeHold v).ectrl = e.ectrl := rfl
@[simp] theorem Envg.writeHold_mult (v : Byte) (e : Envg) : (e.writeHold v).mult = e.mult := rfl
@[simp] theorem Envg.writeHold_hold (v : Byte) (e : Envg) : (e.writeHold v).hold = v := rfl
@[simp] theorem Envg.writeHold_stride (v : Byte) (e : Envg) : (e.writeHold v).stride = e.stride := rfl
@[simp] theorem Envg.writeHold_ent (v : Byte) (e : Envg) : (e.writeHold v).ent = e.ent := rfl
@[simp] theorem Envg.writeHold_ce (v : Byte) (e : Envg) : (e.writeHold v).ce = e.ce := rfl
@[simp] theorem Envg.writeHold_cs (v : Byte) (e : Envg) : (e.writeHold v).cs = e.cs := rfl
@[simp] theorem Envg.writeHold_sq (v : Byte) (e : Envg) : (e.writeHold v).sq = e.sq := rfl
@[simp] theorem Envg.writeStride_ectrl (v : Byte) (e : Envg) : (e.writeStride v).ectrl = e.ectrl := rfl
@[simp] theorem Envg.writeStride_mult (v : Byte) (e : Envg) : (e.writeStride v).mult = e.mult := rfl
@[simp] theorem Envg.writeStride_hold (v : Byte) (e : Envg) : (e.writeStride v).hold = e.hold := rfl
@[simp] theorem Envg.writeStride_stride (v : Byte) (e : Envg) : (e.writeStride v).stride = v := rfl
@[simp] theorem Envg.writeStride_ent (v : Byte) (e : Envg) : (e.writeStride v).ent = e.ent := rfl
@[simp] theorem Envg.writeStride_ce (v : Byte) (e : Envg) : (e.writeStride v).ce = e.ce := rfl
@[simp] theorem Envg.writeStride_cs (v : Byte) (e : Envg) : (e.writeStride v).cs = e.cs := rfl
@[simp] theorem Envg.writeStride_sq (v : Byte) (e : Envg) : (e.writeStride v).sq = e.sq := rfl
@[simp] theorem Envg.writeEntry_ectrl (i : BitVec 7) (v : Byte) (e : Envg) : (e.writeEntry i v).ectrl = e.ectrl := rfl
@[simp] theorem Envg.writeEntry_mult (i : BitVec 7) (v : Byte) (e : Envg) : (e.writeEntry i v).mult = e.mult := rfl
@[simp] theorem Envg.writeEntry_hold (i : BitVec 7) (v : Byte) (e : Envg) : (e.writeEntry i v).hold = e.hold := rfl
@[simp] theorem Envg.writeEntry_stride (i : BitVec 7) (v : Byte) (e : Envg) : (e.writeEntry i v).stride = e.stride := rfl
@[simp] theorem Envg.writeEntry_ent (i : BitVec 7) (v : Byte) (e : Envg) : (e.writeEntry i v).ent = Memory.write e.ent i.toNat v := rfl
@[simp] theorem Envg.writeEntry_ce (i : BitVec 7) (v : Byte) (e : Envg) : (e.writeEntry i v).ce = e.ce := rfl
@[simp] theorem Envg.writeEntry_cs (i : BitVec 7) (v : Byte) (e : Envg) : (e.writeEntry i v).cs = e.cs := rfl
@[simp] theorem Envg.writeEntry_sq (i : BitVec 7) (v : Byte) (e : Envg) : (e.writeEntry i v).sq = e.sq := rfl
@[simp] theorem Envg.keyReset_ectrl (e : Envg) : (e.keyReset).ectrl = dropKeyReset e.ectrl := rfl
@[simp] theorem Envg.keyReset_mult (e : Envg) : (e.keyReset).mult = e.mult := rfl
@[simp] theorem Envg.keyReset_hold (e : Envg) : (e.keyReset).hold = e.hold := rfl
@[simp] theorem Envg.keyReset_stride (e : Envg) : (e.keyReset).stride = e.stride := rfl
@[simp] theorem Envg.keyReset_ent (e : Envg) : (e.keyReset).ent = e.ent := rfl
@[simp] theorem Envg.keyReset_ce (e : Envg) : (e.keyReset).ce = 0 := rfl
@[simp] theorem Envg.keyReset_cs (e : Envg) : (e.keyReset).cs = 0 := rfl
@[simp] theorem Envg.keyReset_sq (e : Envg) : (e.keyReset).sq = e.sq := rfl

/-! ## Channels -/

@[simp] theorem Channel.writeCtrl_cctrl (v : Byte) (h : Channel) : (h.writeCtrl v).cctrl = v := rfl
@[simp] theorem Channel.writeCtrl_voll (v : Byte) (h : Channel) : (h.writeCtrl v).voll = h.voll := rfl
@[simp] theorem Channel.writeCtrl_volr (v : Byte) (h : Channel) : (h.writeCtrl v).volr = h.volr := rfl
@[simp] theorem Channel.writeCtrl_accmax (v : Byte) (h : Channel) : (h.writeCtrl v).accmax = if chClrAccmax v then 0 else h.accmax := rfl
@[simp] theorem Channel.writeCtrl_ampsel (v : Byte) (h : Channel) : (h.writeCtrl v).ampsel = h.ampsel := rfl
@[simp] theorem Channel.writeCtrl_coefsel (v : Byte) (h : Channel) : (h.writeCtrl v).coefsel = h.coefsel := rfl
@[simp] theorem Channel.writeCtrl_lstart (v : Byte) (h : Channel) : (h.writeCtrl v).lstart = if chClrLstart v then 0 else h.lstart := rfl
@[simp] theorem Channel.writeCtrl_lend (v : Byte) (h : Channel) : (h.writeCtrl v).lend = if chClrLend v then 0 else h.lend := rfl
@[simp] theorem Channel.writeCtrl_acc (v : Byte) (h : Channel) : (h.writeCtrl v).acc = h.acc := rfl
@[simp] theorem Channel.writeCtrl_rptr (v : Byte) (h : Channel) : (h.writeCtrl v).rptr = h.rptr := rfl
@[simp] theorem Channel.writeCtrl_stage0 (v : Byte) (h : Channel) : (h.writeCtrl v).stage0 = h.stage0 := rfl
@[simp] theorem Channel.writeCtrl_stage1 (v : Byte) (h : Channel) : (h.writeCtrl v).stage1 = h.stage1 := rfl
@[simp] theorem Channel.writeVoll_cctrl (v : Byte) (h : Channel) : (h.writeVoll v).cctrl = h.cctrl := rfl
@[simp] theorem Channel.writeVoll_voll (v : Byte) (h : Channel) : (h.writeVoll v).voll = v := rfl
@[simp] theorem Channel.writeVoll_volr (v : Byte) (h : Channel) : (h.writeVoll v).volr = h.volr := rfl
@[simp] theorem Channel.writeVoll_accmax (v : Byte) (h : Channel) : (h.writeVoll v).accmax = h.accmax := rfl
@[simp] theorem Channel.writeVoll_ampsel (v : Byte) (h : Channel) : (h.writeVoll v).ampsel = h.ampsel := rfl
@[simp] theorem Channel.writeVoll_coefsel (v : Byte) (h : Channel) : (h.writeVoll v).coefsel = h.coefsel := rfl
@[simp] theorem Channel.writeVoll_lstart (v : Byte) (h : Channel) : (h.writeVoll v).lstart = h.lstart := rfl
@[simp] theorem Channel.writeVoll_lend (v : Byte) (h : Channel) : (h.writeVoll v).lend = h.lend := rfl
@[simp] theorem Channel.writeVoll_acc (v : Byte) (h : Channel) : (h.writeVoll v).acc = h.acc := rfl
@[simp] theorem Channel.writeVoll_rptr (v : Byte) (h : Channel) : (h.writeVoll v).rptr = h.rptr := rfl
@[simp] theorem Channel.writeVoll_stage0 (v : Byte) (h : Channel) : (h.writeVoll v).stage0 = h.stage0 := rfl
@[simp] theorem Channel.writeVoll_stage1 (v : Byte) (h : Channel) : (h.writeVoll v).stage1 = h.stage1 := rfl
@[simp] theorem Channel.writeVolr_cctrl (v : Byte) (h : Channel) : (h.writeVolr v).cctrl = h.cctrl := rfl
@[simp] theorem Channel.writeVolr_voll (v : Byte) (h : Channel) : (h.writeVolr v).voll = h.voll := rfl
@[simp] theorem Channel.writeVolr_volr (v : Byte) (h : Channel) : (h.writeVolr v).volr = v := rfl
@[simp] theorem Channel.writeVolr_accmax (v : Byte) (h : Channel) : (h.writeVolr v).accmax = h.accmax := rfl
@[simp] theorem Channel.writeVolr_ampsel (v : Byte) (h : Channel) : (h.writeVolr v).ampsel = h.ampsel := rfl
@[simp] theorem Channel.writeVolr_coefsel (v : Byte) (h : Channel) : (h.writeVolr v).coefsel = h.coefsel := rfl
@[simp] theorem Channel.writeVolr_lstart (v : Byte) (h : Channel) : (h.writeVolr v).lstart = h.lstart := rfl
@[simp] theorem Channel.writeVolr_lend (v : Byte) (h : Channel) : (h.writeVolr v).lend = h.lend := rfl
@[simp] theorem Channel.writeVolr_acc (v : Byte) (h : Channel) : (h.writeVolr v).acc = h.acc := rfl
@[simp] theorem Channel.writeVolr_rptr (v : Byte) (h : Channel) : (h.writeVolr v).rptr = h.rptr := rfl
@[simp] theorem Channel.writeVolr_stage0 (v : Byte) (h : Channel) : (h.writeVolr v).stage0 = h.stage0 := rfl
@[simp] theorem Channel.writeVolr_stage1 (v : Byte) (h : Channel) : (h.writeVolr v).stage1 = h.stage1 := rfl
@[simp] theorem Channel.writeAccmaxLo_cctrl (v : Byte) (h : Channel) : (h.writeAccmaxLo v).cctrl = h.cctrl := rfl
@[simp] theorem Channel.writeAccmaxLo_voll (v : Byte) (h : Channel) : (h.writeAccmaxLo v).voll = h.voll := rfl
@[simp] theorem Channel.writeAccmaxLo_volr (v : Byte) (h : Channel) : (h.writeAccmaxLo v).volr = h.volr := rfl
@[simp] theorem Channel.writeAccmaxLo_accmax (v : Byte) (h : Channel) : (h.writeAccmaxLo v).accmax = orLow h.accmax v := rfl
@[simp] theorem Channel.writeAccmaxLo_ampsel (v : Byte) (h : Channel) : (h.writeAccmaxLo v).ampsel = h.ampsel := rfl
@[simp] theorem Channel.writeAccmaxLo_coefsel (v : Byte) (h : Channel) : (h.writeAccmaxLo v).coefsel = h.coefsel := rfl
@[simp] theorem Channel.writeAccmaxLo_lstart (v : Byte) (h : Channel) : (h.writeAccmaxLo v).lstart = h.lstart := rfl
@[simp] theorem Channel.writeAccmaxLo_lend (v : Byte) (h : Channel) : (h.writeAccmaxLo v).lend = h.lend := rfl
@[simp] theorem Channel.writeAccmaxLo_acc (v : Byte) (h : Channel) : (h.writeAccmaxLo v).acc = h.acc := rfl
@[simp] theorem Channel.writeAccmaxLo_rptr (v : Byte) (h : Channel) : (h.writeAccmaxLo v).rptr = h.rptr := rfl
@[simp] theorem Channel.writeAccmaxLo_stage0 (v : Byte) (h : Channel) : (h.writeAccmaxLo v).stage0 = h.stage0 := rfl
@[simp] theorem Channel.writeAccmaxLo_stage1 (v : Byte) (h : Channel) : (h.writeAccmaxLo v).stage1 = h.stage1 := rfl
@[simp] theorem Channel.writeAccmaxHi_cctrl (v : Byte) (h : Channel) : (h.writeAccmaxHi v).cctrl = h.cctrl := rfl
@[simp] theorem Channel.writeAccmaxHi_voll (v : Byte) (h : Channel) : (h.writeAccmaxHi v).voll = h.voll := rfl
@[simp] theorem Channel.writeAccmaxHi_volr (v : Byte) (h : Channel) : (h.writeAccmaxHi v).volr = h.volr := rfl
@[simp] theorem Channel.writeAccmaxHi_accmax (v : Byte) (h : Channel) : (h.writeAccmaxHi v).accmax = orHigh h.accmax v := rfl
@[simp] theorem Channel.writeAccmaxHi_ampsel (v : Byte) (h : Channel) : (h.writeAccmaxHi v).ampsel = h.ampsel := rfl
@[simp] theorem Channel.writeAccmaxHi_coefsel (v : Byte) (h : Channel) : (h.writeAccmaxHi v).coefsel = h.coefsel := rfl
@[simp] theorem Channel.writeAccmaxHi_lstart (v : Byte) (h : Channel) : (h.writeAccmaxHi v).lstart = h.lstart := rfl
@[simp] theorem Channel.writeAccmaxHi_lend (v : Byte) (h : Channel) : (h.writeAccmaxHi v).lend = h.lend := rfl
@[simp] theorem Channel.writeAccmaxHi_acc (v : Byte) (h : Channel) : (h.writeAccmaxHi v).acc = h.acc := rfl
@[simp] theorem Channel.writeAccmaxHi_rptr (v : Byte) (h : Channel) : (h.writeAccmaxHi v).rptr = h.rptr := rfl
@[simp] theorem Channel.writeAccmaxHi_stage0 (v : Byte) (h : Channel) : (h.writeAccmaxHi v).stage0 = h.stage0 := rfl
@[simp] theorem Channel.writeAccmaxHi_stage1 (v : Byte) (h : Channel) : (h.writeAccmaxHi v).stage1 = h.stage1 := rfl
@[simp] theorem Channel.writeAmpsel_cctrl (v : Byte) (h : Channel) : (h.writeAmpsel v).cctrl = h.cctrl := rfl
@[simp] theorem Channel.writeAmpsel_voll (v : Byte) (h : Channel) : (h.writeAmpsel v).voll = h.voll := rfl
@[simp] theorem Channel.writeAmpsel_volr (v : Byte) (h : Channel) : (h.writeAmpsel v).volr = h.volr := rfl
@[simp] theorem Channel.writeAmpsel_accmax (v : Byte) (h : Channel) : (h.writeAmpsel v).accmax = h.accmax := rfl
@[simp] theorem Channel.writeAmpsel_ampsel (v : Byte) (h : Channel) : (h.writeAmpsel v).ampsel = selectorOf v := rfl
@[simp] theorem Channel.writeAmpsel_coefsel (v : Byte) (h : Channel) : (h.writeAmpsel v).coefsel = h.coefsel := rfl
@[simp] theorem Channel.writeAmpsel_lstart (v : Byte) (h : Channel) : (h.writeAmpsel v).lstart = h.lstart := rfl
@[simp] theorem Channel.writeAmpsel_lend (v : Byte) (h : Channel) : (h.writeAmpsel v).lend = h.lend := rfl
@[simp] theorem Channel.writeAmpsel_acc (v : Byte) (h : Channel) : (h.writeAmpsel v).acc = h.acc := rfl
@[simp] theorem Channel.writeAmpsel_rptr (v : Byte) (h : Channel) : (h.writeAmpsel v).rptr = h.rptr := rfl
@[simp] theorem Channel.writeAmpsel_stage0 (v : Byte) (h : Channel) : (h.writeAmpsel v).stage0 = h.stage0 := rfl
@[simp] theorem Channel.writeAmpsel_stage1 (v : Byte) (h : Channel) : (h.writeAmpsel v).stage1 = h.stage1 := rfl
@[simp] theorem Channel.writeCoefsel_cctrl (k : Fin 10) (v : Byte) (h : Channel) : (h.writeCoefsel k v).cctrl = h.cctrl := rfl
@[simp] theorem Channel.writeCoefsel_voll (k : Fin 10) (v : Byte) (h : Channel) : (h.writeCoefsel k v).voll = h.voll := rfl
@[simp] theorem Channel.writeCoefsel_volr (k : Fin 10) (v : Byte) (h : Channel) : (h.writeCoefsel k v).volr = h.volr := rfl
@[simp] theorem Channel.writeCoefsel_accmax (k : Fin 10) (v : Byte) (h : Channel) : (h.writeCoefsel k v).accmax = h.accmax := rfl
@[simp] theorem Channel.writeCoefsel_ampsel (k : Fin 10) (v : Byte) (h : Channel) : (h.writeCoefsel k v).ampsel = h.ampsel := rfl
@[simp] theorem Channel.writeCoefsel_coefsel (k : Fin 10) (v : Byte) (h : Channel) : (h.writeCoefsel k v).coefsel = h.coefsel.set k (selectorOf v) := rfl
@[simp] theorem Channel.writeCoefsel_lstart (k : Fin 10) (v : Byte) (h : Channel) : (h.writeCoefsel k v).lstart = h.lstart := rfl
@[simp] theorem Channel.writeCoefsel_lend (k : Fin 10) (v : Byte) (h : Channel) : (h.writeCoefsel k v).lend = h.lend := rfl
@[simp] theorem Channel.writeCoefsel_acc (k : Fin 10) (v : Byte) (h : Channel) : (h.writeCoefsel k v).acc = h.acc := rfl
@[simp] theorem Channel.writeCoefsel_rptr (k : Fin 10) (v : Byte) (h : Channel) : (h.writeCoefsel k v).rptr = h.rptr := rfl
@[simp] theorem Channel.writeCoefsel_stage0 (k : Fin 10) (v : Byte) (h : Channel) : (h.writeCoefsel k v).stage0 = h.stage0 := rfl
@[simp] theorem Channel.writeCoefsel_stage1 (k : Fin 10) (v : Byte) (h : Channel) : (h.writeCoefsel k v).stage1 = h.stage1 := rfl
@[simp] theorem Channel.writeLstartLo_cctrl (v : Byte) (h : Channel) : (h.writeLstartLo v).cctrl = h.cctrl := rfl
@[simp] theorem Channel.writeLstartLo_voll (v : Byte) (h : Channel) : (h.writeLstartLo v).voll = h.voll := rfl
@[simp] theorem Channel.writeLstartLo_volr (v : Byte) (h : Channel) : (h.writeLstartLo v).volr = h.volr := rfl
@[simp] theorem Channel.writeLstartLo_accmax (v : Byte) (h : Channel) : (h.writeLstartLo v).accmax = h.accmax := rfl
@[simp] theorem Channel.writeLstartLo_ampsel (v : Byte) (h : Channel) : (h.writeLstartLo v).ampsel = h.ampsel := rfl
@[simp] theorem Channel.writeLstartLo_coefsel (v : Byte) (h : Channel) : (h.writeLstartLo v).coefsel = h.coefsel := rfl
@[simp] theorem Channel.writeLstartLo_lstart (v : Byte) (h : Channel) : (h.writeLstartLo v).lstart = orLow h.lstart v := rfl
@[simp] theorem Channel.writeLstartLo_lend (v : Byte) (h : Channel) : (h.writeLstartLo v).lend = h.lend := rfl
@[simp] theorem Channel.writeLstartLo_acc (v : Byte) (h : Channel) : (h.writeLstartLo v).acc = h.acc := rfl
@[simp] theorem Channel.writeLstartLo_rptr (v : Byte) (h : Channel) : (h.writeLstartLo v).rptr = h.rptr := rfl
@[simp] theorem Channel.writeLstartLo_stage0 (v : Byte) (h : Channel) : (h.writeLstartLo v).stage0 = h.stage0 := rfl
@[simp] theorem Channel.writeLstartLo_stage1 (v : Byte) (h : Channel) : (h.writeLstartLo v).stage1 = h.stage1 := rfl
@[simp] theorem Channel.writeLstartHi_cctrl (v : Byte) (h : Channel) : (h.writeLstartHi v).cctrl = h.cctrl := rfl
@[simp] theorem Channel.writeLstartHi_voll (v : Byte) (h : Channel) : (h.writeLstartHi v).voll = h.voll := rfl
@[simp] theorem Channel.writeLstartHi_volr (v : Byte) (h : Channel) : (h.writeLstartHi v).volr = h.volr := rfl
@[simp] theorem Channel.writeLstartHi_accmax (v : Byte) (h : Channel) : (h.writeLstartHi v).accmax = h.accmax := rfl
@[simp] theorem Channel.writeLstartHi_ampsel (v : Byte) (h : Channel) : (h.writeLstartHi v).ampsel = h.ampsel := rfl
@[simp] theorem Channel.writeLstartHi_coefsel (v : Byte) (h : Channel) : (h.writeLstartHi v).coefsel = h.coefsel := rfl
@[simp] theorem Channel.writeLstartHi_lstart (v : Byte) (h : Channel) : (h.writeLstartHi v).lstart = orHigh h.lstart v := rfl
@[simp] theorem Channel.writeLstartHi_lend (v : Byte) (h : Channel) : (h.writeLstartHi v).lend = h.lend := rfl
@[simp] theorem Channel.writeLstartHi_acc (v : Byte) (h : Channel) : (h.writeLstartHi v).acc = h.acc := rfl
@[simp] theorem Channel.writeLstartHi_rptr (v : Byte) (h : Channel) : (h.writeLstartHi v).rptr = h.rptr := rfl
@[simp] theorem Channel.writeLstartHi_stage0 (v : Byte) (h : Channel) : (h.writeLstartHi v).stage0 = h.stage0 := rfl
@[simp] theorem Channel.writeLstartHi_stage1 (v : Byte) (h : Channel) : (h.writeLstartHi v).stage1 = h.stage1 := rfl
@[simp] theorem Channel.writeLendLo_cctrl (v : Byte) (h : Channel) : (h.writeLendLo v).cctrl = h.cctrl := rfl
@[simp] theorem Channel.writeLendLo_voll (v : Byte) (h : Channel) : (h.writeLendLo v).voll = h.voll := rfl
@[simp] theorem Channel.writeLendLo_volr (v : Byte) (h : Channel) : (h.writeLendLo v).volr = h.volr := rfl
@[simp] theorem Channel.writeLendLo_accmax (v : Byte) (h : Channel) : (h.writeLendLo v).accmax = h.accmax := rfl
@[simp] theorem Channel.writeLendLo_ampsel (v : Byte) (h : Channel) : (h.writeLendLo v).ampsel = h.ampsel := rfl
@[simp] theorem Channel.writeLendLo_coefsel (v : Byte) (h : Channel) : (h.writeLendLo v).coefsel = h.coefsel := rfl
@[simp] theorem Channel.writeLendLo_lstart (v : Byte) (h : Channel) : (h.writeLendLo v).lstart = h.lstart := rfl
@[simp] theorem Channel.writeLendLo_lend (v : Byte) (h : Channel) : (h.writeLendLo v).lend = orLow h.lend v := rfl
@[simp] theorem Channel.writeLendLo_acc (v : Byte) (h : Channel) : (h.writeLendLo v).acc = h.acc := rfl
@[simp] theorem Channel.writeLendLo_rptr (v : Byte) (h : Channel) : (h.writeLendLo v).rptr = h.rptr := rfl
@[simp] theorem Channel.writeLendLo_stage0 (v : Byte) (h : Channel) : (h.writeLendLo v).stage0 = h.stage0 := rfl
@[simp] theorem Channel.writeLendLo_stage1 (v : Byte) (h : Channel) : (h.writeLendLo v).stage1 = h.stage1 := rfl
@[simp] theorem Channel.writeLendHi_cctrl (v : Byte) (h : Channel) : (h.writeLendHi v).cctrl = h.cctrl := rfl
@[simp] theorem Channel.writeLendHi_voll (v : Byte) (h : Channel) : (h.writeLendHi v).voll = h.voll := rfl
@[simp] theorem Channel.writeLendHi_volr (v : Byte) (h : Channel) : (h.writeLendHi v).volr = h.volr := rfl
@[simp] theorem Channel.writeLendHi_accmax (v : Byte) (h : Channel) : (h.writeLendHi v).accmax = h.accmax := rfl
@[simp] theorem Channel.writeLendHi_ampsel (v : Byte) (h : Channel) : (h.writeLendHi v).ampsel = h.ampsel := rfl
@[simp] theorem Channel.writeLendHi_coefsel (v : Byte) (h : Channel) : (h.writeLendHi v).coefsel = h.coefsel := rfl
@[simp] theorem Channel.writeLendHi_lstart (v : Byte) (h : Channel) : (h.writeLendHi v).lstart = h.lstart := rfl
@[simp] theorem Channel.writeLendHi_lend (v : Byte) (h : Channel) : (h.writeLendHi v).lend = orHigh h.lend v := rfl
@[simp] theorem Channel.writeLendHi_acc (v : Byte) (h : Channel) : (h.writeLendHi v).acc = h.acc := rfl
@[simp] theorem Channel.writeLendHi_rptr (v : Byte) (h : Channel) : (h.writeLendHi v).rptr = h.rptr := rfl
@[simp] theorem Channel.writeLendHi_stage0 (v : Byte) (h : Channel) : (h.writeLendHi v).stage0 = h.stage0 := rfl
@[simp] theorem Channel.writeLendHi_stage1 (v : Byte) (h : Channel) : (h.writeLendHi v).stage1 = h.stage1 := rfl

end Sys2Proof.Machine
end

