-- ==== Sys2Proof/Laws/Ops.lean ====
section
/-! SUPPORT. What the shared operations can do, said once: the ready guard, the masked broadcast, the file updates, and
running operations one after the other. -/

namespace Sys2Proof.Machine

/-! ## Loops over a file -/

/-- A loop that replaces each listed entry once, by itself, replaces exactly the listed ones. -/
theorem foldl_set {α : Type} {n : Nat} (f : Fin n → α → α) (l : List (Fin n)) (hl : l.Nodup) (v : Vector α n)
    (i : Fin n) : (l.foldl (fun v k => v.set k (f k v[k])) v)[i] = if i ∈ l then f i v[i] else v[i] := by
  induction l generalizing v with
  | nil => simp
  | cons k l ih =>
    obtain ⟨hk, hl⟩ := List.nodup_cons.mp hl
    rw [List.foldl_cons, ih hl]
    by_cases hik : i = k
    · subst hik
      simp [hk]
    · have hv : (v.set k (f k v[k]))[i] = v[i] := by
        simp only [Fin.getElem_fin]
        rw [Vector.getElem_set_ne]
        exact fun h => hik (Fin.ext h.symm)
      simp only [List.mem_cons, hik, false_or, hv]

/-- A loop over a whole file is the file taken side by side (log 17). -/
theorem foldl_set_all {α : Type} {n : Nat} (f : Fin n → α → α) (v : Vector α n) :
    (List.finRange n).foldl (fun v k => v.set k (f k v[k])) v = Vector.ofFn fun k => f k v[k] := by
  ext i hi
  simpa using foldl_set f (List.finRange n) (List.nodup_finRange n) v ⟨i, hi⟩

/-! ## The ready guard -/

@[simp] theorem State.whenReady_ready {s t : State} (h : s.life = .ready) : s.whenReady t = .next t := by
  simp [State.whenReady, h]

/-- A guarded operation that has a next state ran on a ready chip, and that state is the one it was given. -/
theorem State.whenReady_next {s t u : State} (h : s.whenReady t = .next u) : s.life = .ready ∧ u = t := by
  unfold State.whenReady at h
  split at h
  · rename_i hl
    cases h
    exact ⟨hl, rfl⟩
  · cases h
  · cases h

@[simp] theorem State.act_ready {f : Chip → Chip} {s : State} (h : s.life = .ready) :
    s.act f = .next (s.withChip (f s.chip)) := by
  simp [State.act, h]

/-- All an operation without result can do. -/
theorem State.act_next {f : Chip → Chip} {s t : State} (h : s.act f = .next t) :
    s.life = .ready ∧ t = s.withChip (f s.chip) :=
  State.whenReady_next h

@[simp] theorem State.answer_ready {v : Byte} {s : State} (h : s.life = .ready) :
    s.answer v = .next (s.observe (.peeked v)) := by
  simp [State.answer, h]

/-- All a PEEK can do. -/
theorem State.answer_next {v : Byte} {s t : State} (h : s.answer v = .next t) :
    s.life = .ready ∧ t = s.observe (.peeked v) :=
  State.whenReady_next h

@[simp] theorem State.withChip_self (s : State) : s.withChip s.chip = s := rfl

/-! ## Arithmetic -/

/-- A clamp stays between its bounds (R200). -/
theorem clamp_bounds (v : Int) {lo hi : Int} (h : lo ≤ hi) : lo ≤ clamp v lo hi ∧ clamp v lo hi ≤ hi := by
  unfold clamp
  split_ifs <;> omega

/-- A clamp leaves what lies between its bounds. -/
theorem clamp_inside {v lo hi : Int} (h1 : lo ≤ v) (h2 : v ≤ hi) : clamp v lo hi = v := by
  unfold clamp
  rw [if_neg (by omega), if_neg (by omega)]

/-- Half of the numbers of `width + 1` bits. -/
theorem half_pow (w : Nat) : ((2 ^ (w + 1) : Nat) : Int) / 2 = 2 ^ w ∧ (((2 ^ (w + 1) : Nat) : Int) + 1) / 2 = 2 ^ w := by
  have h : ((2 ^ (w + 1) : Nat) : Int) = 2 * 2 ^ w := by
    push_cast
    ring
  rw [h]
  generalize (2 : Int) ^ w = p
  omega

/-- A number of `width` bits is narrowed to itself, under both policies (U7). -/
theorem narrow_of_fits (p : AccOverflow) {width : Nat} {v : Int} (hw : 0 < width) (h1 : -(2 ^ (width - 1)) ≤ v)
    (h2 : v < 2 ^ (width - 1)) : narrow p width v = v := by
  obtain ⟨w, rfl⟩ : ∃ w, width = w + 1 := ⟨width - 1, by omega⟩
  rw [Nat.add_sub_cancel] at h1 h2
  cases p
  · exact Int.bmod_eq_of_le (by rw [(half_pow w).1]; exact h1) (by rw [(half_pow w).2]; exact h2)
  · exact clamp_inside h1 (by rw [Nat.add_sub_cancel]; omega)

/-- What is narrowed fits its width. -/
theorem narrow_fits (p : AccOverflow) {width : Nat} (hw : 0 < width) (v : Int) :
    -(2 ^ (width - 1)) ≤ narrow p width v ∧ narrow p width v < 2 ^ (width - 1) := by
  obtain ⟨w, rfl⟩ : ∃ w, width = w + 1 := ⟨width - 1, by omega⟩
  have hp : (0 : Int) < 2 ^ w := by positivity
  rw [Nat.add_sub_cancel]
  cases p
  · have h1 := Int.le_bmod (x := v) (m := 2 ^ (w + 1)) (by positivity)
    have h2 := Int.bmod_lt (x := v) (m := 2 ^ (w + 1)) (by positivity)
    rw [(half_pow w).1] at h1
    rw [(half_pow w).2] at h2
    exact ⟨h1, h2⟩
  · have h := clamp_bounds v (lo := -(2 ^ w)) (hi := 2 ^ w - 1) (by omega)
    exact ⟨h.1, by show clamp v (-(2 ^ w)) (2 ^ w - 1) < 2 ^ w; omega⟩

/-- A 32-bit number is narrowed to itself by every width of 32 bits or more (U7). -/
theorem narrow_exact (p : AccOverflow) {width : Nat} {v : Int} (hw : 32 ≤ width) (h1 : -2147483648 ≤ v)
    (h2 : v ≤ 2147483647) : narrow p width v = v := by
  have h : (2 : Int) ^ 31 ≤ 2 ^ (width - 1) := pow_le_pow_right₀ (by decide) (by omega)
  exact narrow_of_fits p (by omega) (by omega) (by omega)

/-! ## Files of entities -/

@[simp] theorem mapAll_get {α β : Type} {n : Nat} (f : α → β) (v : Vector α n) (i : Nat) (h : i < n) :
    (mapAll f v)[i] = f v[i] := by
  simp [mapAll]

@[simp] theorem mapSelected_get {α : Type} {n : Nat} (mask : BitVec n) (f : α → α) (v : Vector α n) (i : Nat)
    (h : i < n) : (mapSelected mask f v)[i] = if mask[i] then f v[i] else v[i] := by
  simp [mapSelected]

@[simp] theorem mapSelected_id {α : Type} {n : Nat} (mask : BitVec n) (v : Vector α n) :
    mapSelected mask id v = v := by
  ext i h
  simp

theorem mapAll_mapAll {α β γ : Type} {n : Nat} (g : β → γ) (f : α → β) (v : Vector α n) :
    mapAll g (mapAll f v) = mapAll (fun a => g (f a)) v := by
  ext i h
  simp

@[simp] theorem Chip.broadcastEnvg_id (c : Chip) : c.broadcastEnvg id = c := by
  simp [Chip.broadcastEnvg, Chip.setEnvgs]

@[simp] theorem Chip.broadcastCh_id (c : Chip) : c.broadcastCh id = c := by
  simp [Chip.broadcastCh, Chip.setChannels]

/-! ## Broadcasts -/

@[simp] theorem Chip.broadcastEnvg_control (f : Envg → Envg) (c : Chip) : (c.broadcastEnvg f).control = c.control :=
  Chip.setEnvgs_control _ _
@[simp] theorem Chip.broadcastEnvg_chsel (f : Envg → Envg) (c : Chip) : (c.broadcastEnvg f).chsel = c.chsel :=
  Chip.setEnvgs_chsel _ _
@[simp] theorem Chip.broadcastEnvg_envsel (f : Envg → Envg) (c : Chip) : (c.broadcastEnvg f).envsel = c.envsel :=
  Chip.setEnvgs_envsel _ _
@[simp] theorem Chip.broadcastEnvg_wptr (f : Envg → Envg) (c : Chip) : (c.broadcastEnvg f).wptr = c.wptr :=
  Chip.setEnvgs_wptr _ _
@[simp] theorem Chip.broadcastEnvg_wdata (f : Envg → Envg) (c : Chip) : (c.broadcastEnvg f).wdata = c.wdata :=
  Chip.setEnvgs_wdata _ _
@[simp] theorem Chip.broadcastEnvg_ram (f : Envg → Envg) (c : Chip) : (c.broadcastEnvg f).ram = c.ram :=
  Chip.setEnvgs_ram _ _
@[simp] theorem Chip.broadcastEnvg_channels (f : Envg → Envg) (c : Chip) : (c.broadcastEnvg f).channels = c.channels :=
  Chip.setEnvgs_channels _ _
@[simp] theorem Chip.broadcastCh_control (f : Channel → Channel) (c : Chip) : (c.broadcastCh f).control = c.control :=
  Chip.setChannels_control _ _
@[simp] theorem Chip.broadcastCh_chsel (f : Channel → Channel) (c : Chip) : (c.broadcastCh f).chsel = c.chsel :=
  Chip.setChannels_chsel _ _
@[simp] theorem Chip.broadcastCh_envsel (f : Channel → Channel) (c : Chip) : (c.broadcastCh f).envsel = c.envsel :=
  Chip.setChannels_envsel _ _
@[simp] theorem Chip.broadcastCh_wptr (f : Channel → Channel) (c : Chip) : (c.broadcastCh f).wptr = c.wptr :=
  Chip.setChannels_wptr _ _
@[simp] theorem Chip.broadcastCh_wdata (f : Channel → Channel) (c : Chip) : (c.broadcastCh f).wdata = c.wdata :=
  Chip.setChannels_wdata _ _
@[simp] theorem Chip.broadcastCh_ram (f : Channel → Channel) (c : Chip) : (c.broadcastCh f).ram = c.ram :=
  Chip.setChannels_ram _ _
@[simp] theorem Chip.broadcastCh_envgs (f : Channel → Channel) (c : Chip) : (c.broadcastCh f).envgs = c.envgs :=
  Chip.setChannels_envgs _ _
/-- The generator file after the envelope multiplexer's write (R130). -/
@[simp] theorem Chip.broadcastEnvg_envgs (f : Envg → Envg) (c : Chip) (g : Nat) (h : g < 16) :
    (c.broadcastEnvg f).envgs[g] = if c.envsel[g] then f c.envgs[g] else c.envgs[g] := by
  simp [Chip.broadcastEnvg]

/-- The channel file after the channel multiplexer's write (R145). -/
@[simp] theorem Chip.broadcastCh_channels (f : Channel → Channel) (c : Chip) (i : Nat) (h : i < 8) :
    (c.broadcastCh f).channels[i] = if c.chsel[i] then f c.channels[i] else c.channels[i] := by
  simp [Chip.broadcastCh]

/-! ## Operations in sequence -/

@[simp] theorem runAll_nil (s : State) : runAll [] s = .next s := rfl

theorem runAll_cons_next {i : Instr} {is : List Instr} {s t : State} (h : exec i s = .next t) :
    runAll (i :: is) s = runAll is t := by
  simp [runAll, h]

/-- One operation in sequence is that operation. -/
@[simp] theorem runAll_single (i : Instr) (s : State) : runAll [i] s = exec i s := by
  unfold runAll
  cases exec i s <;> rfl

/-- A sequence that has a next state went through a next state after its first operation. -/
theorem runAll_cons_inv {i : Instr} {is : List Instr} {s u : State} (h : runAll (i :: is) s = .next u) :
    ∃ t, exec i s = .next t ∧ runAll is t = .next u := by
  unfold runAll at h
  split at h
  · rename_i t ht
    exact ⟨t, ht, h⟩
  · cases h
  · cases h

/-- A sequence after a sequence. -/
theorem runAll_append {is js : List Instr} {s t : State} (h : runAll is s = .next t) :
    runAll (is ++ js) s = runAll js t := by
  induction is generalizing s with
  | nil =>
    cases h
    rfl
  | cons i is ih =>
    obtain ⟨u, hu, ht⟩ := runAll_cons_inv h
    rw [List.cons_append, runAll_cons_next hu, ih ht]

/-- What every operation keeps, a sequence keeps. -/
theorem runAll_keeps {P : State → Prop} (hP : ∀ i s t, P s → exec i s = .next t → P t) {is : List Instr} {s u : State}
    (hs : P s) (h : runAll is s = .next u) : P u := by
  induction is generalizing s with
  | nil =>
    cases h
    exact hs
  | cons i is ih =>
    obtain ⟨t, ht, hu⟩ := runAll_cons_inv h
    exact ih (hP i s t hs ht) hu

end Sys2Proof.Machine
end

