-- ==== Sys2Proof/Laws/Tick.lean ====
section
/-! SUPPORT. What one update of a generator, one pass and one TICK write and leave alone, field by field. -/

namespace Sys2Proof.Machine

/-! ## Envelope generators -/

/-- The mark plays no part in the update (R181). -/
@[simp] theorem Envg.update_mark (cmp : StrideCompare) (e : Envg) (b : Bool) :
    Envg.update cmp { e with sq := b } = e.update cmp := by
  obtain ⟨ectrl, mult, hold, stride, ent, ce, cs, sq⟩ := e
  simp only [Envg.update, Envg.keyReset, Envg.step, Envg.withinStride, Envg.sustains, Envg.advance]
  cases cmp <;> split_ifs <;> rfl

@[simp] theorem Envg.update_sq (cmp : StrideCompare) (e : Envg) : (e.update cmp).sq = false := rfl

/-- What no update writes (R181, R230). -/
theorem Envg.update_frame (cmp : StrideCompare) (e : Envg) :
    (e.update cmp).mult = e.mult ∧ (e.update cmp).hold = e.hold ∧ (e.update cmp).stride = e.stride ∧
      (e.update cmp).ent = e.ent := by
  simp only [Envg.update, Envg.step, Envg.advance]
  split_ifs <;> simp

/-- `ECTRL` changes in bit 0 only (R182). -/
theorem Envg.update_ectrl (cmp : StrideCompare) (e : Envg) : (e.update cmp).ectrl = dropKeyReset e.ectrl := by
  have key : envgKeyReset e.ectrl = false → e.ectrl = dropKeyReset e.ectrl := by
    generalize e.ectrl = v
    revert v
    decide
  simp only [Envg.update, Envg.step, Envg.advance]
  split_ifs with h <;> first | exact key (by simpa using h) | simp

/-! ## The start of a tick -/

@[simp] theorem Chip.beginTick_control (cfg : Config) (c : Chip) : (c.beginTick cfg).control = 0 := rfl
@[simp] theorem Chip.beginTick_chsel (cfg : Config) (c : Chip) : (c.beginTick cfg).chsel = c.chsel := rfl
@[simp] theorem Chip.beginTick_envsel (cfg : Config) (c : Chip) : (c.beginTick cfg).envsel = c.envsel := rfl
@[simp] theorem Chip.beginTick_wptr (cfg : Config) (c : Chip) : (c.beginTick cfg).wptr = c.wptr := rfl
@[simp] theorem Chip.beginTick_wdata (cfg : Config) (c : Chip) : (c.beginTick cfg).wdata = c.wdata := rfl
@[simp] theorem Chip.beginTick_ram (cfg : Config) (c : Chip) : (c.beginTick cfg).ram = c.ram := rfl
@[simp] theorem Chip.beginTick_channels (cfg : Config) (c : Chip) : (c.beginTick cfg).channels = c.channels := rfl

/-- A generator is updated when some channel references it or its mark was set already (R232, R233). -/
theorem Chip.beginTick_envgs (cfg : Config) (c : Chip) (g : Nat) (h : g < 16) :
    (c.beginTick cfg).envgs[g] =
      if c.referenced ⟨g, h⟩ || c.envgs[g].sq then c.envgs[g].update cfg.strideCompare
      else { c.envgs[g] with sq := false } := by
  have hr : (c.setControl 0).referenced ⟨g, h⟩ = c.referenced ⟨g, h⟩ := rfl
  simp only [Chip.beginTick, Chip.updateMarked, Chip.setEnvgs_envgs, mapAll_get, Chip.markReferenced,
    Vector.getElem_ofFn, hr, Chip.setControl_envgs, Fin.getElem_fin, Envg.update_mark]
  cases hb : (c.referenced ⟨g, h⟩ || c.envgs[g].sq) <;> simp

/-! ## One pass -/

@[simp] theorem Chip.renderPass_control (cfg : Config) (d : Side) (c : Chip) :
    (c.renderPass cfg d).2.control = c.control := rfl
@[simp] theorem Chip.renderPass_chsel (cfg : Config) (d : Side) (c : Chip) :
    (c.renderPass cfg d).2.chsel = c.chsel := rfl
@[simp] theorem Chip.renderPass_envsel (cfg : Config) (d : Side) (c : Chip) :
    (c.renderPass cfg d).2.envsel = c.envsel := rfl
@[simp] theorem Chip.renderPass_wptr (cfg : Config) (d : Side) (c : Chip) :
    (c.renderPass cfg d).2.wptr = c.wptr := rfl
@[simp] theorem Chip.renderPass_wdata (cfg : Config) (d : Side) (c : Chip) :
    (c.renderPass cfg d).2.wdata = c.wdata := rfl
@[simp] theorem Chip.renderPass_ram (cfg : Config) (d : Side) (c : Chip) :
    (c.renderPass cfg d).2.ram = c.ram := rfl
@[simp] theorem Chip.renderPass_envgs (cfg : Config) (d : Side) (c : Chip) :
    (c.renderPass cfg d).2.envgs = c.envgs := rfl

/-- Each channel is rendered by itself (R234, R236). -/
@[simp] theorem Chip.renderPass_channels (cfg : Config) (d : Side) (c : Chip) (i : Nat) (h : i < 8) :
    (c.renderPass cfg d).2.channels[i] = (c.channels[i].side cfg c.ram c.envgs d).2 := by
  simp [Chip.renderPass]

/-- The sample of a pass is the mix of the eight outputs (R235). -/
theorem Chip.renderPass_sample (cfg : Config) (d : Side) (c : Chip) :
    (c.renderPass cfg d).1 = mix (mapAll (fun h => (h.side cfg c.ram c.envgs d).1) c.channels) := by
  simp [Chip.renderPass, mapAll_mapAll]

/-! ## One channel -/

/-- What no pass writes (R230). -/
theorem Channel.side_frame (cfg : Config) (ram : Memory) (envgs : Vector Envg 16) (d : Side) (h : Channel) :
    let t := (h.side cfg ram envgs d).2
    t.voll = h.voll ∧ t.volr = h.volr ∧ t.accmax = h.accmax ∧ t.ampsel = h.ampsel ∧ t.coefsel = h.coefsel ∧
      t.lstart = h.lstart ∧ t.lend = h.lend := by
  cases d
  · exact ⟨rfl, rfl, rfl, rfl, rfl, rfl, rfl⟩
  · simp only [Channel.side, Channel.filter, Channel.prepare, Channel.loadCoefficients, Channel.advancePlayback]
    split_ifs <;> exact ⟨rfl, rfl, rfl, rfl, rfl, rfl, rfl⟩

/-- The control byte is cleared in each pass (R211). -/
@[simp] theorem Channel.side_cctrl (cfg : Config) (ram : Memory) (envgs : Vector Envg 16) (d : Side) (h : Channel) :
    (h.side cfg ram envgs d).2.cctrl = 0 := by
  cases d
  · rfl
  · simp only [Channel.side, Channel.filter, Channel.prepare, Channel.loadCoefficients, Channel.advancePlayback]
    split_ifs <;> rfl

/-- The left pass moves the cursor by the check only (R211, R213). -/
theorem Channel.side_left_cursor (cfg : Config) (ram : Memory) (envgs : Vector Envg 16) (h : Channel) :
    (h.side cfg ram envgs .left).2.rptr = h.cursorCheck.rptr ∧ (h.side cfg ram envgs .left).2.acc = h.acc :=
  ⟨rfl, rfl⟩

/-- The right pass advances after the check (R211, R213). -/
theorem Channel.side_right_cursor (cfg : Config) (ram : Memory) (envgs : Vector Envg 16) (h : Channel) :
    (h.side cfg ram envgs .right).2.rptr = h.cursorCheck.advancePlayback.rptr ∧
      (h.side cfg ram envgs .right).2.acc = h.cursorCheck.advancePlayback.acc :=
  ⟨rfl, rfl⟩

/-- The advance, field by field (R213). -/
theorem Channel.advancePlayback_eq (h : Channel) :
    h.advancePlayback =
      { h with
        rptr := if h.acc = 0 then h.rptr + 1 else h.rptr
        acc := if h.acc = 0 then h.accmax else h.acc - 1 } := by
  unfold Channel.advancePlayback
  split_ifs <;> rfl

/-- A second check right after a first one changes nothing (R211). -/
@[simp] theorem Channel.cursorCheck_twice (h : Channel) : h.cursorCheck.cursorCheck = h.cursorCheck := by
  have h0 : chKeyReset 0#8 = false := rfl
  by_cases hk : chKeyReset h.cctrl = true ∨ BitVec.toNat h.lend < h.rptr.toNat
  · simp [Channel.cursorCheck, hk]
  · obtain ⟨hc, hr⟩ := not_or.mp hk
    simp [Channel.cursorCheck, h0, hc, hr]

/-- Where the check leaves the cursor (R211). -/
theorem Channel.cursorCheck_rptr (h : Channel) :
    h.cursorCheck.rptr.toNat =
      if h.cctrl.getLsbD 0 = true ∨ h.lend.toNat < h.rptr.toNat then h.lstart.toNat % 32768 else h.rptr.toNat := by
  show (if h.cctrl.getLsbD 0 = true ∨ h.lend.toNat < h.rptr.toNat then ramAddress h.lstart else h.rptr).toNat = _
  split_ifs
  · simp [ramAddress]
  · rfl

/-- The filter changes no coefficient (R195). -/
theorem Channel.filter_coef (cfg : Config) (d : Side) (x : Int) (h : Channel) :
    (h.filter cfg d x).2.stage0.coef = h.stage0.coef ∧ (h.filter cfg d x).2.stage1.coef = h.stage1.coef := by
  cases d <;> exact ⟨rfl, rfl⟩

/-- The ten coefficients a pass leaves (R216, R218). -/
theorem Channel.side_coef (cfg : Config) (ram : Memory) (envgs : Vector Envg 16) (d : Side) (h : Channel) :
    (h.side cfg ram envgs d).2.stage0.coef =
        ⟨h.coefFrom envgs 0, h.coefFrom envgs 1, h.coefFrom envgs 2, h.coefFrom envgs 3, h.coefFrom envgs 4⟩ ∧
      (h.side cfg ram envgs d).2.stage1.coef =
        ⟨h.coefFrom envgs 5, h.coefFrom envgs 6, h.coefFrom envgs 7, h.coefFrom envgs 8, h.coefFrom envgs 9⟩ := by
  simp only [Channel.side, Channel.filter_coef]
  cases d
  · exact ⟨rfl, rfl⟩
  · simp only [Channel.prepare, Channel.advancePlayback_eq]
    exact ⟨rfl, rfl⟩

/-- One call keeps the delays of its line in range (R198, R199). -/
theorem biquadCall_fits {cfg : Config} (hw : 0 < cfg.accWidth) (k : Coefs) {d : DelayLine} (x : Int)
    (h : d.fits cfg.accWidth) : (biquadCall cfg k d x).2.fits cfg.accWidth :=
  ⟨narrow_fits _ hw _, h.1⟩

/-- So does a pass with all four delay lines of its channel. -/
theorem Channel.side_delaysFit {cfg : Config} (hw : 0 < cfg.accWidth) (ram : Memory) (envgs : Vector Envg 16)
    (d : Side) {h : Channel} (hf : h.delaysFit cfg.accWidth) :
    (h.side cfg ram envgs d).2.delaysFit cfg.accWidth := by
  obtain ⟨⟨l0, r0⟩, l1, r1⟩ := hf
  cases d
  · exact ⟨⟨biquadCall_fits hw _ _ l0, r0⟩, biquadCall_fits hw _ _ l1, r1⟩
  · simp only [Channel.side, Channel.prepare, Channel.advancePlayback_eq]
    exact ⟨⟨l0, biquadCall_fits hw _ _ r0⟩, l1, biquadCall_fits hw _ _ r1⟩

/-! ## A whole tick -/

@[simp] theorem Chip.tick_control (cfg : Config) (c : Chip) : (c.tick cfg).2.control = 0 := rfl
@[simp] theorem Chip.tick_chsel (cfg : Config) (c : Chip) : (c.tick cfg).2.chsel = c.chsel := rfl
@[simp] theorem Chip.tick_envsel (cfg : Config) (c : Chip) : (c.tick cfg).2.envsel = c.envsel := rfl
@[simp] theorem Chip.tick_wptr (cfg : Config) (c : Chip) : (c.tick cfg).2.wptr = c.wptr := rfl
@[simp] theorem Chip.tick_wdata (cfg : Config) (c : Chip) : (c.tick cfg).2.wdata = c.wdata := rfl
@[simp] theorem Chip.tick_ram (cfg : Config) (c : Chip) : (c.tick cfg).2.ram = c.ram := rfl
@[simp] theorem Chip.tick_envgs (cfg : Config) (c : Chip) : (c.tick cfg).2.envgs = (c.beginTick cfg).envgs := rfl

/-- A channel after a tick: its left pass, then its right pass, both over the updated generators (R230). -/
theorem Chip.tick_channels (cfg : Config) (c : Chip) (i : Nat) (h : i < 8) :
    (c.tick cfg).2.channels[i] =
      ((c.channels[i].side cfg c.ram (c.beginTick cfg).envgs .left).2.side cfg c.ram (c.beginTick cfg).envgs .right).2 := by
  simp [Chip.tick]

/-- The cursor and the rate counter after a tick: one check, then one advance (R222). -/
theorem Chip.tick_cursor (cfg : Config) (c : Chip) (i : Nat) (h : i < 8) :
    (c.tick cfg).2.channels[i].rptr = c.channels[i].cursorCheck.advancePlayback.rptr ∧
      (c.tick cfg).2.channels[i].acc = c.channels[i].cursorCheck.advancePlayback.acc := by
  rw [Chip.tick_channels]
  generalize (c.beginTick cfg).envgs = envgs
  generalize c.channels[i] = x
  obtain ⟨a, b⟩ := Channel.side_right_cursor cfg c.ram envgs (x.side cfg c.ram envgs .left).2
  have hr : (x.side cfg c.ram envgs .left).2.cursorCheck.rptr = x.cursorCheck.rptr := by
    show x.cursorCheck.cursorCheck.rptr = _
    rw [Channel.cursorCheck_twice]
  rw [a, b, Channel.advancePlayback_eq, Channel.advancePlayback_eq]
  dsimp only
  rw [hr]
  exact ⟨rfl, rfl⟩

/-- The left sample of a frame (R234, R235). -/
theorem Chip.tick_left (cfg : Config) (c : Chip) :
    (c.tick cfg).1.1 = mix (mapAll (fun h => (h.side cfg c.ram (c.beginTick cfg).envgs .left).1) c.channels) := by
  show ((c.beginTick cfg).renderPass cfg .left).1 = _
  rw [Chip.renderPass_sample, Chip.beginTick_ram, Chip.beginTick_channels]

/-- The right sample of a frame: the right pass renders the channels that the left pass left (R235, R236). -/
theorem Chip.tick_right (cfg : Config) (c : Chip) :
    (c.tick cfg).1.2 =
      mix (mapAll (fun h => ((h.side cfg c.ram (c.beginTick cfg).envgs .left).2.side cfg c.ram (c.beginTick cfg).envgs
        .right).1) c.channels) := by
  show (((c.beginTick cfg).renderPass cfg .left).2.renderPass cfg .right).1 = _
  rw [Chip.renderPass_sample, Chip.renderPass_ram, Chip.renderPass_envgs, Chip.beginTick_ram]
  refine congrArg mix ?_
  ext i h
  simp only [mapAll_get, Chip.renderPass_channels, Chip.beginTick_ram, Chip.beginTick_channels]

/-- The marking of a generator is the reference the statements speak of (R232). -/
theorem Chip.referenced_iff (c : Chip) (g : Fin 16) : c.referenced g = true ↔ c.References g := by
  simp only [Chip.referenced, Chip.References, Channel.references, List.any_eq_true, Vector.mem_toList_iff,
    Vector.mem_iff_getElem, List.mem_cons, decide_eq_true_eq]
  constructor
  · rintro ⟨h, ⟨i, hi, rfl⟩, sel, rfl | ⟨k, hk, rfl⟩, hs⟩
    · exact ⟨⟨i, hi⟩, .inl hs⟩
    · exact ⟨⟨i, hi⟩, .inr ⟨⟨k, hk⟩, hs⟩⟩
  · rintro ⟨i, hs | ⟨k, hs⟩⟩
    · exact ⟨_, ⟨i.1, i.2, rfl⟩, _, .inl rfl, hs⟩
    · exact ⟨_, ⟨i.1, i.2, rfl⟩, _, .inr ⟨k.1, k.2, rfl⟩, hs⟩

/-- A tick changes no selector, so it keeps the references (R230). -/
theorem Chip.tick_references (cfg : Config) (c : Chip) (g : Fin 16) : (c.tick cfg).2.References g ↔ c.References g := by
  have key : ∀ i : Fin 8, (c.tick cfg).2.channels[i].ampsel = c.channels[i].ampsel ∧
      (c.tick cfg).2.channels[i].coefsel = c.channels[i].coefsel := by
    intro i
    rw [Fin.getElem_fin, Chip.tick_channels]
    have h1 := Channel.side_frame cfg c.ram (c.beginTick cfg).envgs .left c.channels[i.1]
    have h2 := Channel.side_frame cfg c.ram (c.beginTick cfg).envgs .right
      (c.channels[i.1].side cfg c.ram (c.beginTick cfg).envgs .left).2
    exact ⟨h2.2.2.2.1.trans h1.2.2.2.1, h2.2.2.2.2.1.trans h1.2.2.2.2.1⟩
  simp only [Chip.References, key]

/-- A tick keeps every delay in range (R198). -/
theorem Chip.tick_delaysFit {cfg : Config} (hw : 0 < cfg.accWidth) {c : Chip}
    (h : ∀ i : Fin 8, c.channels[i].delaysFit cfg.accWidth) (i : Fin 8) :
    (c.tick cfg).2.channels[i].delaysFit cfg.accWidth := by
  rw [Fin.getElem_fin, Chip.tick_channels]
  exact Channel.side_delaysFit hw _ _ _ (Channel.side_delaysFit hw _ _ _ (h i))

/-- A tick does not look at `WDATA` (R230). -/
theorem Chip.tick_setWdata (cfg : Config) (c : Chip) (w : Half) :
    (c.setWdata w).tick cfg = ((c.tick cfg).1, (c.tick cfg).2.setWdata w) := by
  have hc : ∀ (d : Chip) (u : Byte), (d.setWdata w).setControl u = (d.setControl u).setWdata w := fun _ _ => rfl
  have he : ∀ (d : Chip) (es), (d.setWdata w).setEnvgs es = (d.setEnvgs es).setWdata w := fun _ _ => rfl
  have hh : ∀ (d : Chip) (hs), (d.setWdata w).setChannels hs = (d.setChannels hs).setWdata w := fun _ _ => rfl
  have hr : ∀ d : Chip, (d.setWdata w).referenced = d.referenced := fun d => by
    funext g
    simp only [Chip.referenced, Chip.setWdata_channels]
  have hb : (c.setWdata w).beginTick cfg = (c.beginTick cfg).setWdata w := by
    simp only [Chip.beginTick, Chip.updateMarked, Chip.markReferenced, hc, Chip.setWdata_envgs, hr, he]
  have hp : ∀ (d : Chip) (side : Side), (d.setWdata w).renderPass cfg side =
      ((d.renderPass cfg side).1, (d.renderPass cfg side).2.setWdata w) := fun d side => by
    simp only [Chip.renderPass, Chip.setWdata_envgs, Chip.setWdata_channels, Chip.setWdata_ram, hh]
  simp only [Chip.tick, hb, hp]

/-- All a TICK can do to a state (R230). -/
theorem execTick_next {s t : State} (h : execTick s = .next t) :
    s.life = .ready ∧
      t = (s.withChip (s.chip.tick s.cfg).2).observe (.frame (s.chip.tick s.cfg).1.1 (s.chip.tick s.cfg).1.2) :=
  State.whenReady_next h

theorem execTick_ready {s : State} (h : s.life = .ready) :
    execTick s = .next ((s.withChip (s.chip.tick s.cfg).2).observe
      (.frame (s.chip.tick s.cfg).1.1 (s.chip.tick s.cfg).1.2)) := by
  simp [execTick, h]

end Sys2Proof.Machine
end

