-- ==== Sys2Proof/Laws/Exec.lean ====
section
/-! SUPPORT. What an operation can do, said once for all of them: its effect on the chip, and what it leaves of the rest of
the state. A proof over all operations rewrites with `exec_chip` and looks at `Instr.effect` case by case. -/

namespace Sys2Proof.Machine

/-- The chip an operation leaves, when it has a next state. -/
def Instr.effect (cfg : Config) : Instr → Chip → Chip
  | .pokeControl v => Chip.writeControl cfg v
  | .pokeChsel v => Chip.setChsel v
  | .pokeEnvselLo v => fun c => c.setEnvsel (orLow c.envsel v)
  | .pokeEnvselHi v => fun c => c.setEnvsel (orHigh c.envsel v)
  | .pokeWptrLo v => fun c => c.setWptr (orLow c.wptr v)
  | .pokeWptrHi v => fun c => c.setWptr (orHigh c.wptr v)
  | .pokeWdataLo v => fun c => c.setWdata (orLow c.wdata v)
  | .pokeWdataHi v => fun c => c.setWdata (orHigh c.wdata v)
  | .pokeUnmapped _ _ | .peekControl | .peekChctrl _ | .peekEnvctrl _ | .peekUnmapped _ | .destroy | .ctlRsvd3
  | .ctlRsvd6 | .eReserved _ _ | .cReserved _ _ => id
  | .tick => fun c => (c.tick cfg).2
  | .init => fun _ => Chip.zero
  | .ctlClrEnvsel => Chip.clrEnvsel
  | .ctlClrWptr => Chip.clrWptr
  | .ctlClrWdata => Chip.clrWdata
  | .ctlFwdEnvg => Chip.fwdEnvg cfg
  | .ctlFwdChan => Chip.fwdChan cfg
  | .ctlFwdRam => Chip.fwdRam
  | .eCtrl v => Chip.broadcastEnvg (Envg.writeCtrl v)
  | .eMult v => Chip.broadcastEnvg (Envg.writeMult v)
  | .eHold v => Chip.broadcastEnvg (Envg.writeHold v)
  | .eStride v => Chip.broadcastEnvg (Envg.writeStride v)
  | .eEntry i v => Chip.broadcastEnvg (Envg.writeEntry i v)
  | .cCtrl v => Chip.broadcastCh (Channel.writeCtrl v)
  | .cVoll v => Chip.broadcastCh (Channel.writeVoll v)
  | .cVolr v => Chip.broadcastCh (Channel.writeVolr v)
  | .cAccmaxLo v => Chip.broadcastCh (Channel.writeAccmaxLo v)
  | .cAccmaxHi v => Chip.broadcastCh (Channel.writeAccmaxHi v)
  | .cAmpsel v => Chip.broadcastCh (Channel.writeAmpsel v)
  | .cCoefsel0 v => Chip.broadcastCh (Channel.writeCoefsel 0 v)
  | .cCoefsel1 v => Chip.broadcastCh (Channel.writeCoefsel 1 v)
  | .cCoefsel2 v => Chip.broadcastCh (Channel.writeCoefsel 2 v)
  | .cCoefsel3 v => Chip.broadcastCh (Channel.writeCoefsel 3 v)
  | .cCoefsel4 v => Chip.broadcastCh (Channel.writeCoefsel 4 v)
  | .cCoefsel5 v => Chip.broadcastCh (Channel.writeCoefsel 5 v)
  | .cCoefsel6 v => Chip.broadcastCh (Channel.writeCoefsel 6 v)
  | .cCoefsel7 v => Chip.broadcastCh (Channel.writeCoefsel 7 v)
  | .cCoefsel8 v => Chip.broadcastCh (Channel.writeCoefsel 8 v)
  | .cCoefsel9 v => Chip.broadcastCh (Channel.writeCoefsel 9 v)
  | .cLstartLo v => Chip.broadcastCh (Channel.writeLstartLo v)
  | .cLstartHi v => Chip.broadcastCh (Channel.writeLstartHi v)
  | .cLendLo v => Chip.broadcastCh (Channel.writeLendLo v)
  | .cLendHi v => Chip.broadcastCh (Channel.writeLendHi v)

/-- What an operation returns to the host. -/
def Instr.returned (cfg : Config) (c : Chip) : Instr → List Observation
  | .peekControl => [.peeked c.control]
  | .peekChctrl i => [.peeked c.channels[i].cctrl]
  | .peekEnvctrl g => [.peeked c.envgs[g].ectrl]
  | .peekUnmapped _ => [.peeked 0xFF]
  | .tick => [.frame (c.tick cfg).1.1 (c.tick cfg).1.2]
  | _ => []

/-- The life an operation leaves. -/
def Instr.lifeAfter : Instr → Life
  | .destroy => .destroyed
  | _ => .ready

/-- The state an operation leaves, when it has a next state. -/
def Instr.after (i : Instr) (s : State) : State :=
  ⟨Instr.effect s.cfg i s.chip, Instr.lifeAfter i, s.cfg, s.pending, s.observed ++ Instr.returned s.cfg s.chip i⟩

theorem State.act_after (f : Chip → Chip) (s : State) :
    s.act f = s.whenReady ⟨f s.chip, .ready, s.cfg, s.pending, s.observed ++ []⟩ := by
  obtain ⟨c, l, cfg, p, o⟩ := s
  cases l <;> simp [State.act, State.whenReady, State.withChip]

theorem State.answer_after (v : Byte) (s : State) :
    s.answer v = s.whenReady ⟨s.chip, .ready, s.cfg, s.pending, s.observed ++ [.peeked v]⟩ := by
  obtain ⟨c, l, cfg, p, o⟩ := s
  cases l <;> simp [State.answer, State.whenReady, State.observe]

/-- INIT always runs. -/
theorem exec_init (s : State) : exec .init s = .next (Instr.after .init s) :=
  show Host.Outcome.next (State.mk Chip.zero .ready s.cfg s.pending s.observed) =
      .next (State.mk Chip.zero .ready s.cfg s.pending (s.observed ++ [])) by
    rw [List.append_nil]

theorem execDestroy_after (s : State) : execDestroy s = s.whenReady (Instr.after .destroy s) :=
  show s.whenReady (State.mk s.chip .destroyed s.cfg s.pending s.observed) =
      s.whenReady (State.mk s.chip .destroyed s.cfg s.pending (s.observed ++ [])) by
    rw [List.append_nil]

theorem execTick_after (s : State) : execTick s = s.whenReady (Instr.after .tick s) := by
  obtain ⟨c, l, cfg, p, o⟩ := s
  cases l
  all_goals (simp only [execTick, State.whenReady]; try rfl)

/-- Every other operation runs on a ready chip and is refused on another. -/
theorem exec_eq {i : Instr} (hi : i ≠ .init) (s : State) : exec i s = s.whenReady (Instr.after i s) := by
  cases i
  case init => exact absurd rfl hi
  case tick => exact execTick_after s
  case destroy => exact execDestroy_after s
  case peekControl => exact State.answer_after _ s
  case peekChctrl c => exact State.answer_after _ s
  case peekEnvctrl g => exact State.answer_after _ s
  case peekUnmapped a => exact State.answer_after _ s
  all_goals exact State.act_after _ s

/-- On a ready chip every operation has the next state `Instr.after`. -/
theorem exec_ready (i : Instr) {s : State} (h : s.life = .ready) : exec i s = .next (Instr.after i s) := by
  by_cases hi : i = .init
  · subst hi
    exact exec_init s
  · rw [exec_eq hi, State.whenReady_ready h]

/-- An operation that has a next state is INIT or ran on a ready chip, and that state is `Instr.after`. -/
theorem exec_next {i : Instr} {s t : State} (h : exec i s = .next t) : (i = .init ∨ s.life = .ready) ∧ t = Instr.after i s := by
  by_cases hi : i = .init
  · subst hi
    rw [exec_init] at h
    cases h
    exact ⟨.inl rfl, rfl⟩
  · rw [exec_eq hi] at h
    obtain ⟨hl, rfl⟩ := State.whenReady_next h
    exact ⟨.inr hl, rfl⟩

@[simp] theorem Instr.after_chip (i : Instr) (s : State) : (Instr.after i s).chip = Instr.effect s.cfg i s.chip := rfl
@[simp] theorem Instr.after_life (i : Instr) (s : State) : (Instr.after i s).life = Instr.lifeAfter i := rfl
@[simp] theorem Instr.after_cfg (i : Instr) (s : State) : (Instr.after i s).cfg = s.cfg := rfl
@[simp] theorem Instr.after_pending (i : Instr) (s : State) : (Instr.after i s).pending = s.pending := rfl
@[simp] theorem Instr.after_observed (i : Instr) (s : State) :
    (Instr.after i s).observed = s.observed ++ Instr.returned s.cfg s.chip i := rfl

/-! ## The control byte -/

@[simp] theorem Chip.fwdEnvg_control (cfg : Config) (c : Chip) : (Chip.fwdEnvg cfg c).control = c.control :=
  Chip.broadcastEnvg_control _ _
@[simp] theorem Chip.fwdEnvg_chsel (cfg : Config) (c : Chip) : (Chip.fwdEnvg cfg c).chsel = c.chsel :=
  Chip.broadcastEnvg_chsel _ _
@[simp] theorem Chip.fwdEnvg_envsel (cfg : Config) (c : Chip) : (Chip.fwdEnvg cfg c).envsel = c.envsel :=
  Chip.broadcastEnvg_envsel _ _
@[simp] theorem Chip.fwdEnvg_wptr (cfg : Config) (c : Chip) : (Chip.fwdEnvg cfg c).wptr = c.wptr :=
  Chip.broadcastEnvg_wptr _ _
@[simp] theorem Chip.fwdEnvg_wdata (cfg : Config) (c : Chip) : (Chip.fwdEnvg cfg c).wdata = c.wdata :=
  Chip.broadcastEnvg_wdata _ _
@[simp] theorem Chip.fwdEnvg_ram (cfg : Config) (c : Chip) : (Chip.fwdEnvg cfg c).ram = c.ram :=
  Chip.broadcastEnvg_ram _ _
@[simp] theorem Chip.fwdEnvg_channels (cfg : Config) (c : Chip) : (Chip.fwdEnvg cfg c).channels = c.channels :=
  Chip.broadcastEnvg_channels _ _
@[simp] theorem Chip.fwdChan_control (cfg : Config) (c : Chip) : (Chip.fwdChan cfg c).control = c.control :=
  Chip.broadcastCh_control _ _
@[simp] theorem Chip.fwdChan_chsel (cfg : Config) (c : Chip) : (Chip.fwdChan cfg c).chsel = c.chsel :=
  Chip.broadcastCh_chsel _ _
@[simp] theorem Chip.fwdChan_envsel (cfg : Config) (c : Chip) : (Chip.fwdChan cfg c).envsel = c.envsel :=
  Chip.broadcastCh_envsel _ _
@[simp] theorem Chip.fwdChan_wptr (cfg : Config) (c : Chip) : (Chip.fwdChan cfg c).wptr = c.wptr :=
  Chip.broadcastCh_wptr _ _
@[simp] theorem Chip.fwdChan_wdata (cfg : Config) (c : Chip) : (Chip.fwdChan cfg c).wdata = c.wdata :=
  Chip.broadcastCh_wdata _ _
@[simp] theorem Chip.fwdChan_ram (cfg : Config) (c : Chip) : (Chip.fwdChan cfg c).ram = c.ram :=
  Chip.broadcastCh_ram _ _
@[simp] theorem Chip.fwdChan_envgs (cfg : Config) (c : Chip) : (Chip.fwdChan cfg c).envgs = c.envgs :=
  Chip.broadcastCh_envgs _ _
@[simp] theorem Chip.clrEnvsel_control (c : Chip) : (Chip.clrEnvsel c).control = c.control := rfl
@[simp] theorem Chip.clrEnvsel_chsel (c : Chip) : (Chip.clrEnvsel c).chsel = c.chsel := rfl
@[simp] theorem Chip.clrEnvsel_envsel (c : Chip) : (Chip.clrEnvsel c).envsel = 0 := rfl
@[simp] theorem Chip.clrEnvsel_wptr (c : Chip) : (Chip.clrEnvsel c).wptr = c.wptr := rfl
@[simp] theorem Chip.clrEnvsel_wdata (c : Chip) : (Chip.clrEnvsel c).wdata = c.wdata := rfl
@[simp] theorem Chip.clrEnvsel_ram (c : Chip) : (Chip.clrEnvsel c).ram = c.ram := rfl
@[simp] theorem Chip.clrEnvsel_envgs (c : Chip) : (Chip.clrEnvsel c).envgs = c.envgs := rfl
@[simp] theorem Chip.clrEnvsel_channels (c : Chip) : (Chip.clrEnvsel c).channels = c.channels := rfl
@[simp] theorem Chip.clrWptr_control (c : Chip) : (Chip.clrWptr c).control = c.control := rfl
@[simp] theorem Chip.clrWptr_chsel (c : Chip) : (Chip.clrWptr c).chsel = c.chsel := rfl
@[simp] theorem Chip.clrWptr_envsel (c : Chip) : (Chip.clrWptr c).envsel = c.envsel := rfl
@[simp] theorem Chip.clrWptr_wptr (c : Chip) : (Chip.clrWptr c).wptr = 0 := rfl
@[simp] theorem Chip.clrWptr_wdata (c : Chip) : (Chip.clrWptr c).wdata = c.wdata := rfl
@[simp] theorem Chip.clrWptr_ram (c : Chip) : (Chip.clrWptr c).ram = c.ram := rfl
@[simp] theorem Chip.clrWptr_envgs (c : Chip) : (Chip.clrWptr c).envgs = c.envgs := rfl
@[simp] theorem Chip.clrWptr_channels (c : Chip) : (Chip.clrWptr c).channels = c.channels := rfl
@[simp] theorem Chip.clrWdata_control (c : Chip) : (Chip.clrWdata c).control = c.control := rfl
@[simp] theorem Chip.clrWdata_chsel (c : Chip) : (Chip.clrWdata c).chsel = c.chsel := rfl
@[simp] theorem Chip.clrWdata_envsel (c : Chip) : (Chip.clrWdata c).envsel = c.envsel := rfl
@[simp] theorem Chip.clrWdata_wptr (c : Chip) : (Chip.clrWdata c).wptr = c.wptr := rfl
@[simp] theorem Chip.clrWdata_wdata (c : Chip) : (Chip.clrWdata c).wdata = 0 := rfl
@[simp] theorem Chip.clrWdata_ram (c : Chip) : (Chip.clrWdata c).ram = c.ram := rfl
@[simp] theorem Chip.clrWdata_envgs (c : Chip) : (Chip.clrWdata c).envgs = c.envgs := rfl
@[simp] theorem Chip.clrWdata_channels (c : Chip) : (Chip.clrWdata c).channels = c.channels := rfl
@[simp] theorem Chip.fwdRam_control (c : Chip) : (Chip.fwdRam c).control = c.control := rfl
@[simp] theorem Chip.fwdRam_chsel (c : Chip) : (Chip.fwdRam c).chsel = c.chsel := rfl
@[simp] theorem Chip.fwdRam_envsel (c : Chip) : (Chip.fwdRam c).envsel = c.envsel := rfl
@[simp] theorem Chip.fwdRam_wptr (c : Chip) : (Chip.fwdRam c).wptr = c.wptr := rfl
@[simp] theorem Chip.fwdRam_wdata (c : Chip) : (Chip.fwdRam c).wdata = c.wdata := rfl
@[simp] theorem Chip.fwdRam_envgs (c : Chip) : (Chip.fwdRam c).envgs = c.envgs := rfl
@[simp] theorem Chip.fwdRam_channels (c : Chip) : (Chip.fwdRam c).channels = c.channels := rfl

/-- A field that no performed trigger changes is unchanged by the trigger. -/
theorem onBit_keeps {α : Type} (p : Chip → α) {f : Chip → Chip} {b : Bool} (hf : b = true → ∀ c, p (f c) = p c)
    (c : Chip) : p (onBit b f c) = p c := by
  cases b
  · rfl
  · exact hf rfl c

/-- Whatever none of the performed triggers changes, POKE.CONTROL leaves as storing the byte leaves it (R101). -/
theorem Chip.writeControl_keeps {α : Type} (p : Chip → α) (cfg : Config) (v : Byte) (c : Chip)
    (h0 : ctlClrEnvselBit v = true → ∀ c, p (Chip.clrEnvsel c) = p c)
    (h1 : ctlClrWptrBit v = true → ∀ c, p (Chip.clrWptr c) = p c)
    (h2 : ctlClrWdataBit v = true → ∀ c, p (Chip.clrWdata c) = p c)
    (h4 : ctlFwdEnvgBit v = true → ∀ c, p (Chip.fwdEnvg cfg c) = p c)
    (h5 : ctlFwdChanBit v = true → ∀ c, p (Chip.fwdChan cfg c) = p c)
    (h7 : ctlFwdRamBit v = true → ∀ c, p (Chip.fwdRam c) = p c) :
    p (Chip.writeControl cfg v c) = p (c.setControl v) := by
  unfold Chip.writeControl
  dsimp only
  rw [onBit_keeps p h7, onBit_keeps p h5, onBit_keeps p h4, onBit_keeps p h2, onBit_keeps p h1, onBit_keeps p h0]

/-! ## Words delivered to the multiplexers -/

theorem exec_coefselInstr (k : Fin 10) (v : Byte) (s : State) :
    exec (coefselInstr k v) s = s.act (Chip.broadcastCh (Channel.writeCoefsel k v)) := by
  match k with
  | 0 | 1 | 2 | 3 | 4 | 5 | 6 | 7 | 8 | 9 => rfl

/-- A SUBE word is the envelope multiplexer's write (R90, R131). -/
theorem exec_decodeSube (cfg : Config) (sub : Half) (v : Byte) (s : State) :
    exec (decodeSube cfg sub v) s = s.act (Chip.pokeEnvg cfg sub v) := by
  unfold decodeSube Chip.pokeEnvg
  cases cfg.envgMap.field sub
  case reserved => simp only [Envg.writeField, exec, execEReserved, State.act, Chip.broadcastEnvg_id, id]
  all_goals rfl

/-- A SUBC word is the channel multiplexer's write (R90, R146). -/
theorem exec_decodeSubc (cfg : Config) (sub : Half) (v : Byte) (s : State) :
    exec (decodeSubc cfg sub v) s = s.act (Chip.pokeChannel cfg sub v) := by
  unfold decodeSubc Chip.pokeChannel
  cases cfg.chMap.field sub
  case reserved => simp only [Channel.writeField, exec, execCReserved, State.act, Chip.broadcastCh_id, id]
  case coefsel k => exact exec_coefselInstr k v s
  all_goals rfl

end Sys2Proof.Machine
end

