-- ==== Sys2Proof/Laws/PerInstr.lean ====
section
/-! SUPPORT. The family `TableRow`: the word the encoder writes for an operation carries the fixed bits that
spec/opcode_table.json gives its row, in the row's format, whatever the operands (R80, R81, R83, R84; the table is printed
for the default parameters). -/

namespace Sys2Proof.Laws.TableRow

open Sys2Proof

/-- A row's format, mask and match. -/
inductive Row where
  | hop (mask value : BitVec 27)
  | ctl (mask value : BitVec 8)
  | sube (mask value : BitVec 24)
  | subc (mask value : BitVec 24)
  deriving DecidableEq, Repr

/-- The word is in the row's format and, under the row's mask, is the row's match. -/
def Row.matches : Row → OpWord → Bool
  | .hop m x, .hop w => decide (w &&& m = x)
  | .ctl m x, .ctl w => decide (w &&& m = x)
  | .sube m x, .sube w => decide (w &&& m = x)
  | .subc m x, .subc w => decide (w &&& m = x)
  | _, _ => false

/-- The table, row by row. -/
def row : Instr → Row
  | .pokeControl _ => .hop 0x7FFFF00 0x0000000
  | .pokeChsel _ => .hop 0x7FFFF00 0x0000100
  | .pokeEnvselLo _ => .hop 0x7FFFF00 0x0000200
  | .pokeEnvselHi _ => .hop 0x7FFFF00 0x0000300
  | .pokeWptrLo _ => .hop 0x7FFFF00 0x0000400
  | .pokeWptrHi _ => .hop 0x7FFFF00 0x0000500
  | .pokeWdataLo _ => .hop 0x7FFFF00 0x0000600
  | .pokeWdataHi _ => .hop 0x7FFFF00 0x0000700
  | .pokeUnmapped _ _ => .hop 0x7000000 0x0000000
  | .peekControl => .hop 0x7FFFF00 0x1000000
  | .peekChctrl _ => .hop 0x7FFF800 0x1001000
  | .peekEnvctrl _ => .hop 0x7FFF000 0x1002000
  | .peekUnmapped _ => .hop 0x7000000 0x1000000
  | .tick => .hop 0x7000000 0x2000000
  | .init => .hop 0x7000000 0x3000000
  | .destroy => .hop 0x7000000 0x4000000
  | .ctlClrEnvsel => .ctl 0x01 0x01
  | .ctlClrWptr => .ctl 0x02 0x02
  | .ctlClrWdata => .ctl 0x04 0x04
  | .ctlRsvd3 => .ctl 0x08 0x08
  | .ctlFwdEnvg => .ctl 0x10 0x10
  | .ctlFwdChan => .ctl 0x20 0x20
  | .ctlRsvd6 => .ctl 0x40 0x40
  | .ctlFwdRam => .ctl 0x80 0x80
  | .eCtrl _ => .sube 0xFFFF00 0x000000
  | .eMult _ => .sube 0xFFFF00 0x000100
  | .eHold _ => .sube 0xFFFF00 0x000200
  | .eStride _ => .sube 0xFFFF00 0x000300
  | .eEntry _ _ => .sube 0xFF8000 0x008000
  | .eReserved _ _ => .sube 0x000000 0x000000
  | .cCtrl _ => .subc 0xFFFF00 0x000000
  | .cVoll _ => .subc 0xFFFF00 0x000200
  | .cVolr _ => .subc 0xFFFF00 0x000300
  | .cAccmaxLo _ => .subc 0xFFFF00 0x000400
  | .cAccmaxHi _ => .subc 0xFFFF00 0x000500
  | .cAmpsel _ => .subc 0xFFFF00 0x000600
  | .cCoefsel0 _ => .subc 0xFFFF00 0x000700
  | .cCoefsel1 _ => .subc 0xFFFF00 0x000800
  | .cCoefsel2 _ => .subc 0xFFFF00 0x000900
  | .cCoefsel3 _ => .subc 0xFFFF00 0x000A00
  | .cCoefsel4 _ => .subc 0xFFFF00 0x000B00
  | .cCoefsel5 _ => .subc 0xFFFF00 0x000C00
  | .cCoefsel6 _ => .subc 0xFFFF00 0x000D00
  | .cCoefsel7 _ => .subc 0xFFFF00 0x000E00
  | .cCoefsel8 _ => .subc 0xFFFF00 0x000F00
  | .cCoefsel9 _ => .subc 0xFFFF00 0x001000
  | .cLstartLo _ => .subc 0xFFFF00 0x001100
  | .cLstartHi _ => .subc 0xFFFF00 0x001200
  | .cLendLo _ => .subc 0xFFFF00 0x001300
  | .cLendHi _ => .subc 0xFFFF00 0x001400
  | .cReserved _ _ => .subc 0x000000 0x000000

/-- The encoder's word of `i` is a word of `i`'s row. -/
def Statement (i : Instr) : Prop := (row i).matches (encode Config.default i) = true

/-- The kind of a HOP word is its bits 26..24. -/
theorem hop_kind_mask (k : BitVec 3) (a : Half) (v : Byte) :
    (k ++ a ++ v : BitVec 27) &&& 0x7000000 = k ++ (0 : Half) ++ (0 : Byte) := by
  ext i hi
  simp only [BitVec.getElem_and, BitVec.getElem_append]
  interval_cases i <;> simp

/-- The address of a HOP word is its bits 23..8. -/
theorem hop_addr_mask (k : BitVec 3) (a : Half) (v : Byte) :
    (k ++ a ++ v : BitVec 27) &&& 0x7FFFF00 = k ++ a ++ (0 : Byte) := by
  ext i hi
  simp only [BitVec.getElem_and, BitVec.getElem_append]
  interval_cases i <;> simp

/-- The number of a SUBE or SUBC word is its bits 23..8. -/
theorem sub_mask (a : Half) (v : Byte) : subWord a v &&& 0xFFFF00 = subWord a 0 := by
  refine BitVec.eq_of_getLsbD_eq fun i hi => ?_
  simp only [subWord, BitVec.getLsbD_and, BitVec.getLsbD_append]
  interval_cases i <;> simp

/-- A SUBE word of an entry is known by its bits 23..15. -/
theorem sub_mask_entry (a : Half) (v : Byte) : subWord a v &&& 0xFF8000 = subWord (a &&& 0xFF80) 0 := by
  refine BitVec.eq_of_getLsbD_eq fun i hi => ?_
  simp only [subWord, BitVec.getLsbD_and, BitVec.getLsbD_append]
  interval_cases i <;> simp

theorem pokeControl (val : Byte) : Statement (.pokeControl val) := decide_eq_true (hop_addr_mask _ _ _)
theorem pokeChsel (val : Byte) : Statement (.pokeChsel val) := decide_eq_true (hop_addr_mask _ _ _)
theorem pokeEnvselLo (val : Byte) : Statement (.pokeEnvselLo val) := decide_eq_true (hop_addr_mask _ _ _)
theorem pokeEnvselHi (val : Byte) : Statement (.pokeEnvselHi val) := decide_eq_true (hop_addr_mask _ _ _)
theorem pokeWptrLo (val : Byte) : Statement (.pokeWptrLo val) := decide_eq_true (hop_addr_mask _ _ _)
theorem pokeWptrHi (val : Byte) : Statement (.pokeWptrHi val) := decide_eq_true (hop_addr_mask _ _ _)
theorem pokeWdataLo (val : Byte) : Statement (.pokeWdataLo val) := decide_eq_true (hop_addr_mask _ _ _)
theorem pokeWdataHi (val : Byte) : Statement (.pokeWdataHi val) := decide_eq_true (hop_addr_mask _ _ _)
theorem pokeUnmapped (addr : Half) (val : Byte) : Statement (.pokeUnmapped addr val) := decide_eq_true (hop_kind_mask _ _ _)
theorem peekControl : Statement .peekControl := rfl
theorem peekChctrl (c : Fin 8) : Statement (.peekChctrl c) := by unfold Statement; revert c; decide
theorem peekEnvctrl (g : Fin 16) : Statement (.peekEnvctrl g) := by unfold Statement; revert g; decide
theorem peekUnmapped (addr : Half) : Statement (.peekUnmapped addr) := decide_eq_true (hop_kind_mask _ _ _)
theorem tick : Statement .tick := rfl
theorem init : Statement .init := rfl
theorem destroy : Statement .destroy := rfl
theorem ctlClrEnvsel : Statement .ctlClrEnvsel := rfl
theorem ctlClrWptr : Statement .ctlClrWptr := rfl
theorem ctlClrWdata : Statement .ctlClrWdata := rfl
theorem ctlRsvd3 : Statement .ctlRsvd3 := rfl
theorem ctlFwdEnvg : Statement .ctlFwdEnvg := rfl
theorem ctlFwdChan : Statement .ctlFwdChan := rfl
theorem ctlRsvd6 : Statement .ctlRsvd6 := rfl
theorem ctlFwdRam : Statement .ctlFwdRam := rfl
theorem eCtrl (val : Byte) : Statement (.eCtrl val) := decide_eq_true (sub_mask _ _)
theorem eMult (val : Byte) : Statement (.eMult val) := decide_eq_true (sub_mask _ _)
theorem eHold (val : Byte) : Statement (.eHold val) := decide_eq_true (sub_mask _ _)
theorem eStride (val : Byte) : Statement (.eStride val) := decide_eq_true (sub_mask _ _)
theorem eEntry (i : BitVec 7) (val : Byte) : Statement (.eEntry i val) := by
  refine decide_eq_true ((sub_mask_entry _ _).trans ?_)
  revert i
  decide
theorem eReserved (sub : Half) (val : Byte) : Statement (.eReserved sub val) := decide_eq_true (BitVec.and_zero)
theorem cCtrl (val : Byte) : Statement (.cCtrl val) := decide_eq_true (sub_mask _ _)
theorem cVoll (val : Byte) : Statement (.cVoll val) := decide_eq_true (sub_mask _ _)
theorem cVolr (val : Byte) : Statement (.cVolr val) := decide_eq_true (sub_mask _ _)
theorem cAccmaxLo (val : Byte) : Statement (.cAccmaxLo val) := decide_eq_true (sub_mask _ _)
theorem cAccmaxHi (val : Byte) : Statement (.cAccmaxHi val) := decide_eq_true (sub_mask _ _)
theorem cAmpsel (val : Byte) : Statement (.cAmpsel val) := decide_eq_true (sub_mask _ _)
theorem cCoefsel0 (val : Byte) : Statement (.cCoefsel0 val) := decide_eq_true (sub_mask _ _)
theorem cCoefsel1 (val : Byte) : Statement (.cCoefsel1 val) := decide_eq_true (sub_mask _ _)
theorem cCoefsel2 (val : Byte) : Statement (.cCoefsel2 val) := decide_eq_true (sub_mask _ _)
theorem cCoefsel3 (val : Byte) : Statement (.cCoefsel3 val) := decide_eq_true (sub_mask _ _)
theorem cCoefsel4 (val : Byte) : Statement (.cCoefsel4 val) := decide_eq_true (sub_mask _ _)
theorem cCoefsel5 (val : Byte) : Statement (.cCoefsel5 val) := decide_eq_true (sub_mask _ _)
theorem cCoefsel6 (val : Byte) : Statement (.cCoefsel6 val) := decide_eq_true (sub_mask _ _)
theorem cCoefsel7 (val : Byte) : Statement (.cCoefsel7 val) := decide_eq_true (sub_mask _ _)
theorem cCoefsel8 (val : Byte) : Statement (.cCoefsel8 val) := decide_eq_true (sub_mask _ _)
theorem cCoefsel9 (val : Byte) : Statement (.cCoefsel9 val) := decide_eq_true (sub_mask _ _)
theorem cLstartLo (val : Byte) : Statement (.cLstartLo val) := decide_eq_true (sub_mask _ _)
theorem cLstartHi (val : Byte) : Statement (.cLstartHi val) := decide_eq_true (sub_mask _ _)
theorem cLendLo (val : Byte) : Statement (.cLendLo val) := decide_eq_true (sub_mask _ _)
theorem cLendHi (val : Byte) : Statement (.cLendHi val) := decide_eq_true (sub_mask _ _)
theorem cReserved (sub : Half) (val : Byte) : Statement (.cReserved sub val) := decide_eq_true (BitVec.and_zero)

end Sys2Proof.Laws.TableRow
end

