-- ==== Sys2Proof/Tests/Slice0.lean ====
section
/-! SUPPORT. Tests: ill-formed operations are refused, a word of every opcode-table row decodes, single steps of vectors of
95_test_vectors.md, and for every statement with hypotheses a state and operands that meet them. Words are written out
from 30_encoding.md R81 (`k aaaa vv`), R83, R84 and spec/opcode_table.json. -/

open Sys2Proof Sys2Proof.Machine

namespace Sys2Proof.Tests

/-! ## WellFormed -/

/-- `0x0007` is `WDATA`'s high half (R116), no unmapped address. -/
theorem test_wf_pokeUnmapped :
    WellFormed Config.default (.pokeUnmapped 7 0) = false ∧ WellFormed Config.default (.pokeUnmapped 8 0) = true := by
  decide
/-- `0x0017` and `0x002F` are the ends of the two windows (R122, R123). -/
theorem test_wf_peekUnmapped :
    WellFormed Config.default (.peekUnmapped 0) = false ∧ WellFormed Config.default (.peekUnmapped 0x17) = false ∧
      WellFormed Config.default (.peekUnmapped 0x2F) = false ∧ WellFormed Config.default (.peekUnmapped 0x18) = true := by
  decide
/-- 255 is the last entry (R137). -/
theorem test_wf_eReserved :
    WellFormed Config.default (.eReserved 255 0) = false ∧ WellFormed Config.default (.eReserved 3 0) = false ∧
      WellFormed Config.default (.eReserved 256 0) = true := by
  decide
/-- 20 is `LEND`'s high half (R158). -/
theorem test_wf_cReserved :
    WellFormed Config.default (.cReserved 20 0) = false ∧ WellFormed Config.default (.cReserved 0 0) = false ∧
      WellFormed Config.default (.cReserved 21 0) = true := by
  decide

/-- A map without rows names no number for a field that only a row can name (R10, R132, R147). -/
theorem test_wf_no_number :
    let cfg := { Config.default with envgMap := ⟨[]⟩, chMap := ⟨[]⟩ }
    ([Instr.eCtrl 0, .eMult 0, .eHold 0, .eStride 0, .cVolr 0, .cAccmaxLo 0, .cAccmaxHi 0, .cAmpsel 0, .cLstartLo 0,
        .cLstartHi 0, .cLendLo 0, .cLendHi 0].all fun i => !(WellFormed cfg i) && WellFormed Config.default i) = true ∧
      WellFormed cfg (.eEntry 0 0) = true ∧ WellFormed cfg (.cVoll 0) = true := by decide
/-- A map may name one field twice, and cannot move 0, 2, 7..16 or 128..255 (R10, D5, D6). -/
theorem test_other_maps :
    let cfg := { Config.default with envgMap := ⟨[(300, .hold), (128, .hold)]⟩, chMap := ⟨[(3, .voll), (30, .volr), (2, .volr)]⟩ }
    decodeSube cfg 300 1 = .eHold 1 ∧ decodeSube cfg 128 1 = .eEntry 0 1 ∧ decodeSube cfg 0 1 = .eReserved 0 1 ∧
      decodeSubc cfg 3 1 = .cVoll 1 ∧ decodeSubc cfg 2 1 = .cVoll 1 ∧ decodeSubc cfg 30 1 = .cVolr 1 := by decide

/-! ## Decode -/

/-- The decoder's answer under the default parameters. -/
def reads (w : OpWord) : Option (List Instr) := (decode Config.default w).toOption

theorem test_decode_pokeControl : reads (.hop 0x0000016) = some [.pokeControl 0x16] := by decide
theorem test_decode_pokeChsel : reads (.hop 0x0000105) = some [.pokeChsel 0x05] := by decide
theorem test_decode_pokeEnvselLo : reads (.hop 0x0000201) = some [.pokeEnvselLo 0x01] := by decide
theorem test_decode_pokeEnvselHi : reads (.hop 0x0000380) = some [.pokeEnvselHi 0x80] := by decide
theorem test_decode_pokeWptrLo : reads (.hop 0x0000434) = some [.pokeWptrLo 0x34] := by decide
theorem test_decode_pokeWptrHi : reads (.hop 0x0000512) = some [.pokeWptrHi 0x12] := by decide
theorem test_decode_pokeWdataLo : reads (.hop 0x0000640) = some [.pokeWdataLo 0x40] := by decide
theorem test_decode_pokeWdataHi : reads (.hop 0x0000701) = some [.pokeWdataHi 0x01] := by decide
/-- The windows of PEEK are unmapped for POKE (T1). -/
theorem test_decode_pokeUnmapped :
    reads (.hop 0x00008FF) = some [.pokeUnmapped 0x0008 0xFF] ∧
      reads (.hop 0x0001001) = some [.pokeUnmapped 0x0010 0x01] := by decide
theorem test_decode_peekControl : reads (.hop 0x1000000) = some [.peekControl] := by decide
theorem test_decode_peekChctrl : reads (.hop 0x1001700) = some [.peekChctrl 7] := by decide
theorem test_decode_peekEnvctrl : reads (.hop 0x1002F00) = some [.peekEnvctrl 15] := by decide
/-- The addresses T1 lists. -/
theorem test_decode_peekUnmapped :
    [0x0008, 0xFFFF, 0x0002, 0x000F, 0x0018, 0x001F, 0x0030].all
      (fun a : Half => decide (reads (.hop (0x1#3 ++ a ++ 0#8)) = some [.peekUnmapped a])) = true := by decide
theorem test_decode_tick : reads (.hop 0x2000000) = some [.tick] := by decide
theorem test_decode_init : reads (.hop 0x3000000) = some [.init] := by decide
theorem test_decode_destroy : reads (.hop 0x4000000) = some [.destroy] := by decide
/-- Kinds 5, 6, 7 are no operations (R91). -/
theorem test_decode_other_kinds :
    reads (.hop 0x5000000) = none ∧ reads (.hop 0x6000000) = none ∧ reads (.hop 0x7FFFFFF) = none := by decide
theorem test_decode_ctlClrEnvsel : reads (.ctl 0x01) = some [.ctlClrEnvsel] := by decide
theorem test_decode_ctlClrWptr : reads (.ctl 0x02) = some [.ctlClrWptr] := by decide
theorem test_decode_ctlClrWdata : reads (.ctl 0x04) = some [.ctlClrWdata] := by decide
theorem test_decode_ctlRsvd3 : reads (.ctl 0x08) = some [.ctlRsvd3] := by decide
theorem test_decode_ctlFwdEnvg : reads (.ctl 0x10) = some [.ctlFwdEnvg] := by decide
theorem test_decode_ctlFwdChan : reads (.ctl 0x20) = some [.ctlFwdChan] := by decide
theorem test_decode_ctlRsvd6 : reads (.ctl 0x40) = some [.ctlRsvd6] := by decide
theorem test_decode_ctlFwdRam : reads (.ctl 0x80) = some [.ctlFwdRam] := by decide
/-- Several bits: ascending order (R102). -/
theorem test_decode_ctl_order : reads (.ctl 0x16) = some [.ctlClrWptr, .ctlClrWdata, .ctlFwdEnvg] := by decide
theorem test_decode_eCtrl : reads (.sube 0x0000F1) = some [.eCtrl 0xF1] := by decide
theorem test_decode_eMult : reads (.sube 0x000180) = some [.eMult 0x80] := by decide
theorem test_decode_eHold : reads (.sube 0x00027F) = some [.eHold 0x7F] := by decide
theorem test_decode_eStride : reads (.sube 0x000309) = some [.eStride 0x09] := by decide
theorem test_decode_eEntry :
    reads (.sube 0x0080AA) = some [.eEntry 0 0xAA] ∧ reads (.sube 0x0085C0) = some [.eEntry 5 0xC0] ∧
      reads (.sube 0x00FFBB) = some [.eEntry 127 0xBB] := by decide
/-- The numbers of V-ES-4. -/
theorem test_decode_eReserved :
    reads (.sube 0x007FCC) = some [.eReserved 127 0xCC] ∧ reads (.sube 0x0100DD) = some [.eReserved 256 0xDD] ∧
      reads (.sube 0x0004EE) = some [.eReserved 4 0xEE] := by decide
theorem test_decode_cCtrl : reads (.subc 0x00000F) = some [.cCtrl 0x0F] := by decide
theorem test_decode_cVoll : reads (.subc 0x0002C0) = some [.cVoll 0xC0] := by decide
theorem test_decode_cVolr : reads (.subc 0x00037F) = some [.cVolr 0x7F] := by decide
theorem test_decode_cAccmaxLo : reads (.subc 0x000434) = some [.cAccmaxLo 0x34] := by decide
theorem test_decode_cAccmaxHi : reads (.subc 0x000512) = some [.cAccmaxHi 0x12] := by decide
theorem test_decode_cAmpsel : reads (.subc 0x0006FF) = some [.cAmpsel 0xFF] := by decide
theorem test_decode_cCoefsel0 : reads (.subc 0x000701) = some [.cCoefsel0 0x01] := by decide
theorem test_decode_cCoefsel1 : reads (.subc 0x000802) = some [.cCoefsel1 0x02] := by decide
theorem test_decode_cCoefsel2 : reads (.subc 0x000921) = some [.cCoefsel2 0x21] := by decide
theorem test_decode_cCoefsel3 : reads (.subc 0x000A03) = some [.cCoefsel3 0x03] := by decide
theorem test_decode_cCoefsel4 : reads (.subc 0x000B04) = some [.cCoefsel4 0x04] := by decide
theorem test_decode_cCoefsel5 : reads (.subc 0x000C05) = some [.cCoefsel5 0x05] := by decide
theorem test_decode_cCoefsel6 : reads (.subc 0x000D06) = some [.cCoefsel6 0x06] := by decide
theorem test_decode_cCoefsel7 : reads (.subc 0x000E01) = some [.cCoefsel7 0x01] := by decide
theorem test_decode_cCoefsel8 : reads (.subc 0x000F08) = some [.cCoefsel8 0x08] := by decide
theorem test_decode_cCoefsel9 : reads (.subc 0x00101A) = some [.cCoefsel9 0x1A] := by decide
theorem test_decode_cLstartLo : reads (.subc 0x001105) = some [.cLstartLo 0x05] := by decide
theorem test_decode_cLstartHi : reads (.subc 0x001280) = some [.cLstartHi 0x80] := by decide
theorem test_decode_cLendLo : reads (.subc 0x00130F) = some [.cLendLo 0x0F] := by decide
theorem test_decode_cLendHi : reads (.subc 0x001401) = some [.cLendHi 0x01] := by decide
theorem test_decode_cReserved :
    reads (.subc 0x000155) = some [.cReserved 1 0x55] ∧ reads (.subc 0x001555) = some [.cReserved 21 0x55] := by decide

/-- Words as the opcode table numbers them; a bare 24-bit word is read as log 6 says. -/
theorem test_table_words :
    decodeTableWord 32 0x2000000 = some .tick ∧ decodeTableWord 8 0x80 = some .ctlFwdRam ∧
      decodeTableWord 24 0x0085C0 = some (.eEntry 5 0xC0) ∧ decodeTableWord 24 0x001401 = some (.cLendHi 1) ∧
      decodeTableWord 32 0x5000000 = none := by decide

/-! ## Single steps -/

/-- The next state after one word, tested. -/
def steps (s : State) (w : OpWord) (p : State → Bool) : Bool :=
  match step (s.withPending [w]) with
  | .next t => p t
  | .fault _ => false
  | .refused _ => false

/-- The state after INIT with another chip. -/
def initWith (c : Chip) : State := State.reset.withChip c

/-- The chip after INIT. -/
def z : Chip := Chip.zero

/-- V-BUS-2. -/
theorem test_step_wptrLo : steps (initWith (z.setWptr 0x1234)) (.hop 0x00004FF) (fun t => t.chip.wptr == 0x12FF) = true := by
  decide +kernel
/-- V-BUS-1, the second POKE. -/
theorem test_step_wptrHi : steps (initWith (z.setWptr 0x0034)) (.hop 0x0000512) (fun t => t.chip.wptr == 0x1234) = true := by
  decide +kernel
/-- V-BUS-4, the second POKE. -/
theorem test_step_envselHi :
    steps (initWith (z.setEnvsel 1)) (.hop 0x0000380) (fun t => t.chip.envsel == 0x8001) = true := by decide +kernel
/-- V-BUS-12. -/
theorem test_step_chsel : steps (initWith (z.setChsel 0xFF)) (.hop 0x0000105) (fun t => t.chip.chsel == 5) = true := by
  decide +kernel
/-- V-BUS-3. -/
theorem test_step_clrWptr : steps (initWith (z.setWptr 0x12FF)) (.hop 0x0000002)
    (fun t => t.chip.wptr == 0 && t.chip.control == 2) = true := by decide +kernel
/-- V-BUS-5: the last POKE. -/
theorem test_step_fwdRam : steps (initWith ((z.setWdata 0x0180).setWptr 0x8003)) (.hop 0x0000080)
    (fun t => (Memory.read t.chip.ram 3).toInt == -128 && t.chip.wdata == 0x0180 && t.chip.wptr == 0x8003) = true := by
  decide +kernel
/-- V-BUS-7: clears come before the forward. -/
theorem test_step_clear_then_forward :
    steps (initWith ((((z.setEnvsel 1).setWptr 1).setWdata 5).setEnvgs (z.envgs.set 0 { Envg.zero with mult := 5, ectrl := 2 })))
      (.hop 0x0000016) (fun t => t.chip.wptr == 0 && t.chip.wdata == 0 && t.chip.envgs[0].ectrl == 0 &&
        t.chip.envgs[0].mult == 5 && t.chip.control == 0x16) = true := by decide +kernel
/-- V-BUS-8: the three forwards. -/
theorem test_step_three_forwards : steps (initWith ((((z.setChsel 1).setEnvsel 1).setWptr 2).setWdata 0x7F)) (.hop 0x00000B0)
    (fun t => t.chip.envgs[0].hold == 127 && t.chip.channels[0].voll == 127 && Memory.read t.chip.ram 2 == 127 &&
      t.chip.envgs[1].hold == 0 && t.chip.channels[1].voll == 0) = true := by decide +kernel
/-- PEEK of `CONTROL` and of an unmapped address (V-BUS-6, T1). -/
theorem test_step_peek :
    steps (initWith (z.setControl 0x48)) (.hop 0x1000000) (fun t => t.observed == [.peeked 0x48]) = true ∧
      steps (initWith (z.setControl 0x48)) (.hop 0x1000100) (fun t => t.observed == [.peeked 0xFF]) = true := by
  decide +kernel
/-- V-BUS-10: the window reads `CCTRL[7]`. -/
theorem test_step_peekChctrl : steps (initWith (z.setChannels (z.channels.set 7 { Channel.zero with cctrl := 0xF1 })))
    (.hop 0x1001700) (fun t => t.observed == [.peeked 0xF1]) = true := by decide +kernel
/-- V-BUS-11: the window reads `ECTRL[15]`. -/
theorem test_step_peekEnvctrl : steps (initWith (z.setEnvgs (z.envgs.set 15 { Envg.zero with ectrl := 0xFD })))
    (.hop 0x1002F00) (fun t => t.observed == [.peeked 0xFD]) = true := by decide +kernel
/-- V-ES-1. -/
theorem test_step_eMult : steps (initWith (z.setEnvsel 0xFFFF)) (.sube 0x000180)
    (fun t => t.chip.envgs.toList.all fun e => e.mult.toInt == -128) = true := by decide +kernel
/-- V-ES-2: generators 0 and 15 only. -/
theorem test_step_eStride : steps (initWith (z.setEnvsel 0x8001)) (.sube 0x000309)
    (fun t => t.chip.envgs.toList.map (·.stride) == [9] ++ List.replicate 14 0 ++ [9]) = true := by decide +kernel
/-- V-ES-3, the second write. -/
theorem test_step_eEntry : steps (initWith ((z.setEnvsel 1).setEnvgs (z.envgs.set 0 { Envg.zero with ent := [(0, 170)] })))
    (.sube 0x00FFBB) (fun t => t.chip.envgs[0].ent == [(0, 170), (127, 187)]) = true := by decide +kernel
/-- V-CS-2. -/
theorem test_step_cCtrl :
    steps (initWith ((z.setChsel 1).setChannels (z.channels.set 0 { Channel.zero with accmax := 0x1234, lstart := 5, lend := 9, acc := 7, rptr := 3 })))
      (.subc 0x00000F) (fun t => t.chip.channels[0].cctrl == 0x0F && t.chip.channels[0].accmax == 0 &&
        t.chip.channels[0].lstart == 0 && t.chip.channels[0].lend == 0 && t.chip.channels[0].acc == 7 &&
        t.chip.channels[0].rptr == 3) = true := by decide +kernel
/-- V-CS-3. -/
theorem test_step_selectors :
    steps (initWith (z.setChsel 1)) (.subc 0x0006FF) (fun t => t.chip.channels[0].ampsel == 15) = true ∧
      steps (initWith (z.setChsel 1)) (.subc 0x00101A) (fun t => t.chip.channels[0].coefsel.toList ==
        [0, 0, 0, 0, 0, 0, 0, 0, 0, 10]) = true := by decide +kernel
/-- V-CS-5: the low half after the high half. -/
theorem test_step_cLstartLo :
    steps (initWith ((z.setChsel 1).setChannels (z.channels.set 0 { Channel.zero with lstart := 0x8000 })))
      (.subc 0x001102) (fun t => t.chip.channels[0].lstart == 0x8002) = true := by decide +kernel
/-- T2: channels 0 and 2 only. -/
theorem test_step_cVoll : steps (initWith (z.setChsel 5)) (.subc 0x000240)
    (fun t => t.chip.channels.toList.map (·.voll) == [64, 0, 64, 0, 0, 0, 0, 0]) = true := by decide +kernel

/-- The set-up UNITY(0x01) of 95_test_vectors.md 2.6. -/
def unity (voll volr : Byte) (h : Channel) (ram : Memory) : Chip :=
  ((z.setRam ram).setEnvgs
    ((z.envgs.set 1 { Envg.zero with mult := 2, ent := [(0, 128)], ectrl := 2 }).set 2
      { Envg.zero with mult := 127, ent := [(0, 255)], ectrl := 2 })).setChannels
    (z.channels.set 0 { h with voll := voll, volr := volr, ampsel := 2, coefsel := ((Vector.replicate 10 0).set 2 1).set 7 1 })

/-- V-CH-1. -/
theorem test_step_tick_saturates : steps (initWith (unity 0x80 0x7F Channel.zero [(0, 0x80)])) (.hop 0x2000000)
    (fun t => t.observed == [.frame 4048 (-4049)] && t.chip.channels[0].stage0.dl.d0 == 4194304 &&
      t.chip.channels[0].stage0.dr.d0 == -4161536 && t.chip.channels[0].stage1.dl.d0 == 32767) = true := by
  decide +kernel
/-- V-CH-3: an empty loop pins the cursor. -/
theorem test_step_tick_pinned :
    steps (initWith (unity 1 1 { Channel.zero with lstart := 5, lend := 2, cctrl := 1 } [(0, 1), (5, 6)])) (.hop 0x2000000)
      (fun t => t.observed == [.frame 189 189] && t.chip.channels[0].rptr == 6 && t.chip.channels[0].cctrl == 0) = true := by
  decide +kernel
/-- V-TK-2. -/
theorem test_step_tick_after_reset : steps State.reset (.hop 0x2000000)
    (fun t => t.observed == [.frame 0 0] && (t.chip.channels.toList.all fun h => h.rptr == 1 && h.acc == 0) &&
      t.chip.envgs[0].ce == 1 && t.chip.envgs[1].ce == 0) = true := by decide +kernel
/-- V-EN-1 and V-EN-3: a key-reset's tick, and one with the bug's comparison. -/
theorem test_update_keyReset :
    (Envg.update .configured { Envg.zero with ectrl := 1, ce := 9, cs := 4 }) = Envg.zero ∧
      (Envg.update .sourceBug { Envg.zero with stride := 2 }).ce = 1 ∧
      (Envg.update .configured { Envg.zero with stride := 2 }).cs = 1 := by decide +kernel
/-- V-EN-8: sustained with `CS = STRIDE`. V-EN-4: the end of the table. V-EN-5: 128 never holds. -/
theorem test_update_holds :
    (Envg.update .configured { Envg.zero with stride := 1, hold := 1, ectrl := 2, ce := 1, cs := 1 }).ce = 1 ∧
      (Envg.update .configured { Envg.zero with ce := 127 }).ce = 127 ∧
      (Envg.update .configured { Envg.zero with hold := 128, ectrl := 2 }).ce = 1 := by decide +kernel
/-- V-EN-10 and V-EN-12: the outputs. -/
theorem test_outputs :
    Envg.lin { Envg.zero with mult := 0x80, ent := [(0, 255)] } = -32640 ∧
      Envg.exp Config.default { Envg.zero with mult := 3, ent := [(0, 100)] } = 27 ∧
      Envg.exp Config.default { Envg.zero with mult := 0xFF } = -1 := by decide +kernel
/-- V-BQ-5a, V-BQ-5b and V-BQ-7: which delay each coefficient takes, each product floored by itself, the wrap. -/
theorem test_biquad :
    biquadCall Config.default ⟨1, 0, 256, 0, 0⟩ ⟨0, -1⟩ 10 = (11, ⟨11, 0⟩) ∧
      biquadCall Config.default ⟨0, 1, 256, 0, 0⟩ ⟨-1, 0⟩ 10 = (11, ⟨11, -1⟩) ∧
      biquadCall Config.default ⟨0, -32768, 0, 0, 0⟩ ⟨16777216, 0⟩ 0 = (0, ⟨-2147483648, 16777216⟩) := by decide +kernel
/-- V-BQ-7's intermediate, `2^31`, in a saturating and in a wider accumulator (R10, U7). -/
theorem test_biquad_acc_width :
    (biquadCall { Config.default with accOverflow := .saturate } ⟨0, -32768, 0, 0, 0⟩ ⟨16777216, 0⟩ 0).2 =
        ⟨2147483647, 16777216⟩ ∧
      (biquadCall { Config.default with accWidth := 40 } ⟨0, -32768, 0, 0, 0⟩ ⟨16777216, 0⟩ 0).2 =
        ⟨2147483648, 16777216⟩ := by decide +kernel
/-- V-BQ-4 and V-BQ-9: all five coefficients, and the clamp. -/
theorem test_biquad_clamp :
    biquadCall Config.default ⟨0, -128, 64, 128, 64⟩ ⟨1500, 1000⟩ (-1000) = (937, ⟨-250, 1500⟩) ∧
      (biquadCall Config.default ⟨0, 0, -32768, 0, 0⟩ ⟨0, 0⟩ 32767).1 = -32767 := by decide +kernel
/-- V-MX-1. -/
theorem test_mix :
    mix #v[-4049, 0, 0, 0, 0, 0, 0, 0] = -507 ∧ mix #v[7, 0, 0, 0, 0, 0, 0, 0] = 0 ∧
      mix #v[32639, 32639, 32639, 32639, 32639, 32639, 32639, 32639] = 32639 := by decide +kernel
/-- R271 and R275: nothing but INIT runs before INIT or after DESTROY. -/
theorem test_step_life :
    steps (State.reset.withLife .uninitialised) (.hop 0x2000000) (fun _ => true) = false ∧
      steps (State.reset.withLife .destroyed) (.hop 0x3000000) (fun t => t.life == .ready) = true ∧
      steps State.reset (.hop 0x4000000) (fun t => t.life == .destroyed) = true := by decide +kernel
/-- `withFetchWord` and the next step: PRG1's POKE of `CHSEL`. -/
theorem test_withFetchWord :
    (match step (State.reset.withFetchWord 32 0x0000105) with
      | .next t => decide (t.chip.chsel = 5 ∧ t.pending = [])
      | .fault _ => false
      | .refused _ => false) = true := by decide +kernel

/-! ## Witnesses: for every statement with hypotheses, a state and operands that meet them -/

/-- A chip in use: every kind of state holds something, and it is at rest. Generators 1 (armed key-reset) and 2 are
referenced by channel 0, generators 0 by the other channels, 3 to 15 by none. -/
def busy : State :=
  { initWith { unity 0x80 0x7F { Channel.zero with accmax := 3, lstart := 2, lend := 9, acc := 2, rptr := 4, cctrl := 0x80 }
      [(0, 0x80), (4, 7)] with control := 0x48, chsel := 5, envsel := 0x0011, wptr := 0x8003, wdata := 0x0180 } with
    pending := [.hop 0x2000000], observed := [.peeked 0xFF] }

/-- `busy` with one generator replaced. -/
def withEnvg (g : Fin 16) (e : Envg) : State := busy.withChip (busy.chip.setEnvgs (busy.chip.envgs.set g e))

/-- `busy` with channel 0 replaced. -/
def withCh (h : Channel) : State := busy.withChip (busy.chip.setChannels (busy.chip.channels.set 0 h))

/-- The only hypothesis of DestroyKeepsTheChip, EveryOperationCompletes, PokeChselReplaces, PokeStagingHalvesAreOred,
StagingWritesAccumulate, ClearTriggersZeroTheirRegister, PokeControlPerformsItsSetBits, ForwardsRunTheStagedWord,
PeekReturnsTheControlByte, MultiplexersVisitTheSelectedInOrder, EnvelopeScalarWrites, ChannelControlWrite,
ChannelVolumeWrites, ChannelHalvesAreOred, ChannelSelectorWrites, TickIsItsFivePhases, TickNeverWritesHostState,
TickLoadsAllTenCoefficients, TickIsTheChannelProcedure and RenderReturnsExactlyItsFrames: the chip is ready. -/
theorem witness_ready : busy.life = .ready := rfl

theorem witness_OutsideLifeOnlyInitRuns :
    Instr.tick ≠ .init ∧ (busy.withLife .uninitialised).life = .uninitialised ∧
      (busy.withLife .destroyed).life = .destroyed := by decide

theorem witness_PokeUnmappedDoesNothing : busy.life = .ready ∧ 8 ≤ (8 : Half).toNat ∧ 8 ≤ (0xFFFF : Half).toNat := by decide

theorem witness_FwdRamStoresTheStagedByte :
    busy.life = .ready ∧ busy.chip.atRest ∧ busy.chip.wptr.toNat % 32768 = 3 ∧ (3 : Nat) ≠ 4 := by decide +kernel

/-- Both reserved bits, and none. -/
theorem witness_ReservedControlBitsTriggerNothing :
    busy.life = .ready ∧ (0x48 : Byte) &&& 0xB7 = 0 ∧ (0 : Byte) &&& 0xB7 = 0 := by decide

/-- The same low byte under another high byte. -/
theorem witness_WdataHighByteHasNoEffect :
    busy.life = .ready ∧ busy.cfg.subregSrc = .wptr ∧ (0xFF80 : Half).toNat % 256 = busy.chip.wdata.toNat % 256 := by
  decide

/-- Each side of each window of the default parameters, and the top of the address space. -/
theorem witness_PeekUnmappedReturnsTheSentinel :
    busy.life = .ready ∧ ([0x0001, 0x000F, 0x0018, 0x001F, 0x0030, 0xFFFF].all fun addr : Half =>
      decide (addr ≠ 0 ∧ ¬ (Config.default.peekChBase ≤ addr.toNat ∧ addr.toNat < Config.default.peekChBase + 8) ∧
        ¬ (Config.default.peekEnvgBase ≤ addr.toNat ∧ addr.toNat < Config.default.peekEnvgBase + 16))) = true := by decide

/-- Two chips that differ, among other things, in `RAM`, volumes and staging, with the same 25 control bytes. -/
theorem witness_PeekSeesOnlyControlBytes :
    let s := busy.withChip (((busy.chip.setRam []).setWptr 0).setChannels (mapAll (fun h => { h with voll := 1, acc := 9 }) busy.chip.channels))
    busy.life = .ready ∧ s.life = .ready ∧ busy.cfg = s.cfg ∧ busy.chip.control = s.chip.control ∧
      (∀ c : Fin 8, busy.chip.channels[c].cctrl = s.chip.channels[c].cctrl) ∧
      (∀ g : Fin 16, busy.chip.envgs[g].ectrl = s.chip.envgs[g].ectrl) ∧ busy ≠ s := by decide +kernel

/-- `busy` selects generator 4 and not generator 5; entries 0 and 127. -/
theorem witness_EnvelopeEntryWrite :
    busy.life = .ready ∧ busy.chip.atRest ∧ busy.chip.envsel.getLsbD 4 = true ∧ busy.chip.envsel.getLsbD 5 = false ∧
      (127 : Nat) ≠ (0 : BitVec 7).toNat := by decide +kernel

/-- Both ends of each reserved range, and their neighbours outside it. -/
theorem witness_ReservedSubregistersDoNothing :
    busy.life = .ready ∧
    ([4, 127, 256, 0xFFFF].all fun s : Half => decide (EnvgSubregMap.default.field s = .reserved)) = true ∧
    ([3, 128, 255].all fun s : Half => decide (EnvgSubregMap.default.field s ≠ .reserved)) = true ∧
    ([1, 21, 0xFFFF].all fun s : Half => decide (ChSubregMap.default.field s = .reserved)) = true ∧
    ([0, 2, 20].all fun s : Half => decide (ChSubregMap.default.field s ≠ .reserved)) = true := by decide

/-- An operation that each clause's hypotheses allow, and a control byte with bit 0, 1 or 2 clear. -/
theorem witness_StagingIsSticky :
    (∃ t, exec (.pokeControl 0xF8) busy = .next t) ∧ Instr.pokeControl 0xF8 ≠ .init ∧
      (∀ v, Instr.pokeControl 0xF8 ≠ .pokeChsel v) ∧ Instr.pokeControl 0xF8 ≠ .ctlClrEnvsel ∧
      ∀ v, Instr.pokeControl 0xF8 = .pokeControl v → v.getLsbD 0 = false ∧ v.getLsbD 1 = false ∧ v.getLsbD 2 = false :=
  ⟨⟨_, rfl⟩, nofun, nofun, nofun, fun v h => by cases h; decide⟩

theorem witness_OnlyFwdRamWritesRam :
    (∃ t, exec (.pokeControl 0x7F) busy = .next t) ∧ Instr.pokeControl 0x7F ≠ .init ∧
      Instr.pokeControl 0x7F ≠ .ctlFwdRam ∧ ∀ v, Instr.pokeControl 0x7F = .pokeControl v → v.getLsbD 7 = false :=
  ⟨⟨_, rfl⟩, nofun, nofun, fun v h => by cases h; decide⟩

theorem witness_OnlyTickMovesPrivateState :
    (∃ t, exec (.cCtrl 0xFF) busy = .next t) ∧ Instr.cCtrl 0xFF ≠ .init ∧ Instr.cCtrl 0xFF ≠ .tick :=
  ⟨⟨_, rfl⟩, nofun, nofun⟩

/-- One generator for each of the five cases, at the last count, the hold point, the last but one and the last entry. -/
theorem witness_EnvelopeUpdateCases :
    let e : Envg := { Envg.zero with stride := 3, hold := 127, ectrl := 2 }
    let within (e : Envg) : Prop := StrideCompare.configured = .configured ∧ e.cs.toNat < e.stride.toNat
    let held (e : Envg) : Prop := e.ectrl.getLsbD 1 = true ∧ e.ce.toNat = e.hold.toNat
    { e with ectrl := 1 }.ectrl.getLsbD 0 = true ∧
    e.ectrl.getLsbD 0 = false ∧ within { e with cs := 2 } ∧
    (¬ within { e with cs := 3, ce := 127 } ∧ held { e with cs := 3, ce := 127 }) ∧
    (¬ within { e with cs := 3, ce := 126 } ∧ ¬ held { e with cs := 3, ce := 126 } ∧ { e with ce := 126 }.ce.toNat < 127) ∧
    (¬ within { e with cs := 3, ce := 127, hold := 128 } ∧ ¬ held { e with cs := 3, ce := 127, hold := 128 } ∧
      { e with ce := 127 }.ce.toNat = 127) := by
  decide

/-- Generators 1 and 2 are referenced, generator 15 is not. -/
theorem witness_TickStepsReferencedGeneratorsOnce :
    busy.life = .ready ∧ busy.chip.atRest ∧ busy.chip.References 1 ∧ busy.chip.References 2 ∧ ¬ busy.chip.References 15 := by
  decide +kernel

/-- T4's generator. -/
theorem witness_SustainHoldsForEver :
    let s := withEnvg 1 { Envg.zero with ectrl := 3 }
    s.life = .ready ∧ s.chip.atRest ∧ s.chip.envgs[1].ectrl.getLsbD 1 = true ∧ s.chip.envgs[1].stride = 0 ∧
      s.chip.envgs[1].hold = 0 ∧ s.chip.envgs[1].ce = 0 := by decide +kernel

/-- A generator without key-on, one whose hold point is the last entry, and one whose hold point is none. -/
theorem witness_FreeRunningEnvelopeTiming :
    ([{ Envg.zero with ectrl := 1, stride := 2 }, { Envg.zero with ectrl := 3, hold := 127 },
        { Envg.zero with ectrl := 3, hold := 128 }].all fun e : Envg =>
      let s := withEnvg 1 e
      decide (s.life = .ready ∧ s.chip.atRest ∧ s.chip.References 1 ∧ s.chip.envgs[1].ectrl.getLsbD 0 = true)) = true := by
  decide +kernel

/-- With `b0 = 256` alone, `b` is the input: each clause at its boundary. -/
theorem witness_BiquadClampsAndShiftsItsDelayLine :
    let f (x : Int) : Int := (Stage.filter Config.default .left x ⟨⟨0, 0, 256, 0, 0⟩, ⟨0, 0⟩, ⟨0, 0⟩⟩).1
    f (-32767) = -32767 ∧ f 32767 = 32767 ∧ f (-32768) = -32767 ∧ f 32768 = 32767 ∧
      Config.default.accOverflow = .wrap ∧ 0 < Config.default.accWidth := by decide +kernel

/-- With all coefficients 0 the intermediate is the input: both ends of 32 bits, at 32 bits and more. -/
theorem witness_BiquadWithoutOverflowIsExact :
    let a (x : Int) : Int := x - (0 * 0) / ((2 ^ Config.default.biquadShift : Nat) : Int)
    32 ≤ Config.default.accWidth ∧ a 2147483647 ≤ 2147483647 ∧ -2147483648 ≤ a (-2147483648) ∧ (32 : Nat) ≤ 40 := by decide

theorem witness_BiquadSilenceAndPassThrough :
    32 ≤ Config.default.accWidth ∧ (-2147483648 : Int) ≤ 2147483647 ∧ Config.default.biquadShift = 8 := by decide

/-- A referenced and an unreferenced generator. -/
theorem witness_AfterTickTriggersAreClear :
    busy.life = .ready ∧ busy.chip.References 1 ∧ ¬ busy.chip.References 15 := by decide +kernel

/-- A counter that runs, one that is done, a key-reset, a cursor past the end and one at the end of the address space. -/
theorem witness_TickMovesThePlaybackCursor :
    busy.life = .ready ∧ busy.chip.channels[0].acc ≠ 0 ∧ busy.chip.channels[1].acc = 0 ∧
      (withCh { Channel.zero with cctrl := 1, lend := 9, rptr := 3 }).chip.channels[0].cctrl.getLsbD 0 = true ∧
      (withCh { Channel.zero with lend := 9, rptr := 10 }).chip.channels[0].lend.toNat < 10 ∧
      ¬ (withCh { Channel.zero with lend := 32767, rptr := 32767 }).chip.channels[0].lend.toNat < 32767 := by decide +kernel

/-- An empty loop passed, and the loop of one sample after INIT. -/
theorem witness_FetchIsNeverPastLendUnlessReloaded :
    let h : Channel := { Channel.zero with lstart := 5, lend := 2, rptr := 3 }
    h.lend.toNat < h.lstart.toNat % 32768 ∧ h.lend.toNat < h.rptr.toNat ∧ Channel.zero.lstart = 0 ∧
      Channel.zero.lend = 0 := by decide

/-- A counter at 0, a cursor just before the end; the last address but one. -/
theorem witness_CursorPeriodIsAccmaxPlusOne :
    let s := withCh { Channel.zero with accmax := 3, lend := 32767, rptr := 32766 }
    s.life = .ready ∧ s.chip.channels[0].acc = 0 ∧ s.chip.channels[0].cctrl.getLsbD 0 = false ∧
      s.chip.channels[0].rptr.toNat + 1 ≤ s.chip.channels[0].lend.toNat ∧ s.chip.channels[0].rptr.toNat < 32767 := by
  decide +kernel

theorem witness_FramesFitSixteenBits : busy.life = .ready ∧ busy.cfg.ampShift = 15 := by decide

theorem witness_SilentUntilAMultiplierIsSet :
    State.reset.life = .ready ∧ ∀ g : Fin 16, State.reset.chip.envgs[g].mult = 0 := by decide +kernel

/-- Another right volume and another right delay line. -/
theorem witness_RightSideNeverReachesTheLeft :
    let s := withCh { busy.chip.channels[0] with volr := 1, stage0 := { Stage.zero with dr := ⟨5, 6⟩ } }
    busy.life = .ready ∧ s.life = .ready ∧ busy.cfg = s.cfg ∧ busy.chip.leftPart = s.chip.leftPart ∧ busy ≠ s := by
  decide +kernel

theorem witness_PseudoOperationsForwardTheirPair : busy.life = .ready ∧ busy.cfg.subregSrc = .wptr := by decide

/-- The default parameters, and an operation of each default row. -/
theorem witness_DecodeOfEncode :
    Config.default.windowsDisjoint ∧
      WellFormed Config.default (.cLendHi 1) = true ∧ WellFormed Config.default (.pokeUnmapped 8 1) = true ∧
      WellFormed Config.default (.peekUnmapped 0x30) = true ∧ WellFormed Config.default (.eReserved 256 1) = true ∧
      WellFormed Config.default (.cReserved 21 1) = true := by decide

theorem witness_DecodedOperationsAreWellFormed :
    decode Config.default (.hop 0x0FFFF00) = .ok [.pokeUnmapped 0xFFFF 0] ∧
      Instr.pokeUnmapped 0xFFFF 0 ∈ [Instr.pokeUnmapped 0xFFFF 0] := by decide

/-- Kinds 5 and 7. -/
theorem witness_OnlyHopKindsFiveToSevenAreRefused :
    (busy.withPending [.hop 0x5000000]).pending = OpWord.hop 0x5000000 :: [] ∧ 5 ≤ (0x5000000 : BitVec 27).toNat / 2 ^ 24 ∧
      5 ≤ (0x7FFFFFF : BitVec 27).toNat / 2 ^ 24 := by decide

/-- A word of one operation, and a CTL byte of three. -/
theorem witness_StepRunsTheDecodedOperation :
    busy.pending = OpWord.hop 0x2000000 :: [] ∧ decode busy.cfg (.hop 0x2000000) = .ok [.tick] ∧
      decode busy.cfg (.ctl 0xB0) = .ok [.ctlFwdEnvg, .ctlFwdChan, .ctlFwdRam] := by decide +kernel

theorem witness_IdleChipKeepsItsState : State.reset.pending = [] := rfl

theorem witness_StepKeepsTheInvariant : busy.Inv ∧ ∃ t, step busy = .next t := ⟨by decide +kernel, _, rfl⟩

theorem witness_StepKeepsParametersAndHistory : ∃ t, step busy = .next t := ⟨_, rfl⟩

end Sys2Proof.Tests
end

/-! SUPPORT. The statements of 40_bus_registers.md about the select and staging registers, the clear triggers, the RAM
forward and PEEK's default row, and the laws they rest on. -/

namespace Sys2Proof

/-! ## The decoders of the bus -/

/-- The rows a CTL byte stands for: one for each set bit (R83, R102). -/
theorem mem_decodeCtl (i : Instr) (b : Byte) :
    i ∈ decodeCtl b ↔
      b.getLsbD 0 = true ∧ i = .ctlClrEnvsel ∨ b.getLsbD 1 = true ∧ i = .ctlClrWptr ∨
      b.getLsbD 2 = true ∧ i = .ctlClrWdata ∨ b.getLsbD 3 = true ∧ i = .ctlRsvd3 ∨
      b.getLsbD 4 = true ∧ i = .ctlFwdEnvg ∨ b.getLsbD 5 = true ∧ i = .ctlFwdChan ∨
      b.getLsbD 6 = true ∧ i = .ctlRsvd6 ∨ b.getLsbD 7 = true ∧ i = .ctlFwdRam := by
  simp only [decodeCtl, List.mem_append, List.mem_ite_nil_right, List.mem_singleton, or_assoc]

/-- An address is outside the channel window exactly when no channel's control byte is read there (R122). -/
theorem Config.chWindow_eq_none_iff (cfg : Config) (addr : Half) :
    cfg.chWindow addr = none ↔ ¬ (cfg.peekChBase ≤ addr.toNat ∧ addr.toNat < cfg.peekChBase + 8) := by
  rw [Config.chWindow, dite_eq_right_iff]
  simp only [reduceCtorEq, imp_false]
  omega

/-- An address is outside the envelope window exactly when no generator's control byte is read there (R123). -/
theorem Config.envgWindow_eq_none_iff (cfg : Config) (addr : Half) :
    cfg.envgWindow addr = none ↔ ¬ (cfg.peekEnvgBase ≤ addr.toNat ∧ addr.toNat < cfg.peekEnvgBase + 16) := by
  rw [Config.envgWindow, dite_eq_right_iff]
  simp only [reduceCtorEq, imp_false]
  omega

/-- PEEK's default row is the one of every address that no more specific row takes (R90, R124). -/
theorem decodePeek_of_windows_none {cfg : Config} {addr : Half} (h0 : addr ≠ 0) (hc : cfg.chWindow addr = none)
    (hg : cfg.envgWindow addr = none) : decodePeek cfg addr = .peekUnmapped addr := by
  simp only [decodePeek, if_neg h0, hc, hg]

end Sys2Proof

namespace Sys2Proof.Machine

/-! ## Operations that change the chip only -/

/-- On a ready chip an operation that returns nothing and leaves the chip ready changes the chip only. -/
theorem exec_of_returned_nil {i : Instr} {s : State} (h : s.life = .ready) (hr : Instr.returned s.cfg s.chip i = [])
    (hl : Instr.lifeAfter i = .ready) :
    exec i s = .next { s with chip := Instr.effect s.cfg i s.chip } := by
  rw [exec_ready i h, Instr.after, hr, hl, List.append_nil, ← h]

/-! ## The RAM forward -/

@[simp] theorem ramAddress_toNat (x : Half) : (ramAddress x).toNat = x.toNat % 32768 :=
  BitVec.toNat_setWidth 15 x

@[simp] theorem stagedByte_toNat (c : Chip) : (stagedByte c).toNat = c.wdata.toNat % 256 :=
  BitVec.toNat_setWidth 8 c.wdata

/-- `sext_8(WDATA[7:0])`: the staged byte read as signed (R87, R108). -/
theorem stagedByte_toInt (c : Chip) :
    (stagedByte c).toInt =
      if c.wdata.toNat % 256 < 128 then (c.wdata.toNat % 256 : Int) else (c.wdata.toNat % 256 : Int) - 256 := by
  rw [BitVec.toInt_eq_toNat_cond, stagedByte_toNat]
  split_ifs <;> omega

/-- What every address of the RAM reads after the forward: the staged byte at `WPTR mod 32768`, elsewhere as before
(R108). -/
theorem Chip.fwdRam_read {c : Chip} (hm : Memory.wf 32768 c.ram = true) (a : Nat) :
    Memory.read c.fwdRam.ram a = if c.wptr.toNat % 32768 = a then stagedByte c else Memory.read c.ram a := by
  rw [Chip.fwdRam, Chip.setRam_ram, Memory.read_write hm, ramAddress_toNat]

/-! ## The statements -/

/-- Settles O6: the decoder's row of `0x0001`, and that row's effect on the chip. -/
theorem pokeChselReplaces : Obligations.PokeChselReplaces :=
  fun _ => ⟨rfl, fun _ h => exec_of_returned_nil h rfl rfl⟩

/-- Settles O7: the decoder's rows of `0x0002` to `0x0007`, and each row's effect on the chip. -/
theorem pokeStagingHalvesAreOred : Obligations.PokeStagingHalvesAreOred := by
  refine fun v => ⟨⟨rfl, rfl, rfl, rfl, rfl, rfl⟩, fun s h => ⟨?_, ?_, ?_, ?_, ?_, ?_⟩⟩
  all_goals exact exec_of_returned_nil h rfl rfl

/-- Settles O10: the rows of a control byte by its bits, and the effect of the three clear rows on the chip. -/
theorem clearTriggersZeroTheirRegister : Obligations.ClearTriggersZeroTheirRegister := by
  refine ⟨fun v => ?_, fun s h => ⟨?_, ?_, ?_⟩⟩
  · simp [mem_decodeCtl]
  all_goals exact exec_of_returned_nil h rfl rfl

/-- Settles O11: the RAM that the forward leaves, read at `WPTR mod 32768` and at every other address. -/
theorem fwdRamStoresTheStagedByte : Obligations.FwdRamStoresTheStagedByte := by
  refine ⟨fun v => by simp [mem_decodeCtl], fun s h hrest => ?_⟩
  obtain ⟨hram, -⟩ := hrest
  refine ⟨s.chip.fwdRam.ram, exec_of_returned_nil h rfl rfl, ?_, fun a ha => ?_⟩
  · rw [Chip.fwdRam_read hram, if_pos rfl, stagedByte_toInt]
  · rw [Chip.fwdRam_read hram, if_neg ha.symm]

/-- Settles O17: outside both windows only the default row is left, and it answers the sentinel. -/
theorem peekUnmappedReturnsTheSentinel : Obligations.PeekUnmappedReturnsTheSentinel := by
  intro cfg addr h0 hch henvg
  refine ⟨decodePeek_of_windows_none h0 ?_ ?_, fun s h => State.answer_ready h⟩
  · exact (cfg.chWindow_eq_none_iff addr).mpr hch
  · exact (cfg.envgWindow_eq_none_iff addr).mpr henvg

end Sys2Proof.Machine

/-! SUPPORT. The statement of 41_envg_subregisters.md about the two multiplexers, and the law of a masked loop it rests
on. -/

namespace Sys2Proof.Machine

/-! ## Masked loops over a file -/

/-- An entry that a masked write leaves alone may as well be replaced by itself. -/
theorem ite_set_eq_set_ite {α : Type} {n : Nat} (p : Prop) [Decidable p] (f : α → α) (v : Vector α n) (k : Fin n) :
    (if p then v.set k (f v[k]) else v) = v.set k (if p then f v[k] else v[k]) := by
  split_ifs with hp
  · rfl
  · exact (Vector.set_getElem_self k.isLt).symm

/-- A loop that visits a file in ascending order and writes the entities of the mask is the masked file taken side by side
(R130, R145, log 17). -/
theorem foldl_set_selected {α : Type} {n : Nat} (mask : BitVec n) (f : α → α) (v : Vector α n) :
    (List.finRange n).foldl (fun v (k : Fin n) => if mask.getLsbD k.val then v.set k (f v[k]) else v) v =
      mapSelected mask f v := by
  simp only [ite_set_eq_set_ite]
  exact foldl_set_all (fun k a => if mask.getLsbD k.val then f a else a) v

/-! ## The statement -/

/-- Settles O19: a delivered word is its multiplexer's broadcast, and the broadcast is the loop over the mask. -/
theorem multiplexersVisitTheSelectedInOrder : Obligations.MultiplexersVisitTheSelectedInOrder := by
  intro s sub v h
  constructor
  · rw [foldl_set_selected, exec_decodeSube, State.act_ready h]
    rfl
  · rw [foldl_set_selected, exec_decodeSubc, State.act_ready h]
    rfl

end Sys2Proof.Machine

/-! SUPPORT. The statements of 30_encoding.md: decoding the encoder's words, the operations the decoder answers, and the
words it refuses. -/

namespace Sys2Proof

/-! ## HOP words -/

/-- A HOP word of kind 0 is a POKE (R81). -/
theorem decode_pokeWord (cfg : Config) (a : Half) (v : Byte) :
    decode cfg (hopWord 0 a v) = .ok [decodePoke a v] :=
  decode_hopWord cfg 0 a v

/-- A HOP word of kind 1 is a PEEK (R81). -/
theorem decode_peekWord (cfg : Config) (a : Half) (v : Byte) :
    decode cfg (hopWord 1 a v) = .ok [decodePeek cfg a] :=
  decode_hopWord cfg 1 a v

/-- The POKE rows are those of `0x0000` to `0x0007`; every other address has the default row (R90, R117). -/
theorem decodePoke_of_ge {a : Half} (h : 8 ≤ a.toNat) (v : Byte) : decodePoke a v = .pokeUnmapped a v := by
  have ne : ∀ x : Half, x.toNat < 8 → a ≠ x := by
    rintro x hx rfl
    omega
  simp only [decodePoke, ne 0 (by decide), ne 1 (by decide), ne 2 (by decide), ne 3 (by decide), ne 4 (by decide),
    ne 5 (by decide), ne 6 (by decide), ne 7 (by decide), if_false]

/-- An address in the channel window reads its channel's control byte (R122). -/
theorem Config.chWindow_eq_some {cfg : Config} {a : Half} {c : Fin 8} (h : a.toNat = cfg.peekChBase + c.val) :
    cfg.chWindow a = some c := by
  have hc := c.isLt
  rw [Config.chWindow, dif_pos (by omega)]
  simp only [h, Nat.add_sub_cancel_left]

/-- An address in the envelope window reads its generator's control byte (R123). -/
theorem Config.envgWindow_eq_some {cfg : Config} {a : Half} {g : Fin 16} (h : a.toNat = cfg.peekEnvgBase + g.val) :
    cfg.envgWindow a = some g := by
  have hg := g.isLt
  rw [Config.envgWindow, dif_pos (by omega)]
  simp only [h, Nat.add_sub_cancel_left]

/-- The address the encoder writes for a place in a window that lies in the 16-bit space. -/
theorem toNat_ofNat_window {base i size : Nat} (h : base + size ≤ 65536) (hi : i < size) :
    (BitVec.ofNat 16 (base + i)).toNat = base + i := by
  rw [BitVec.toNat_ofNat]
  omega

/-- `0` reads `CONTROL`, so an address of a window is another one. -/
theorem half_ne_zero {a : Half} {base i : Nat} (h : a.toNat = base + i) (hb : 0 < base) : a ≠ 0 := by
  rintro rfl
  have h0 : (0 : Half).toNat = 0 := rfl
  omega

/-- With legal windows the channel window's addresses decode to PEEK.CHCTRL (R90, D3). -/
theorem decodePeek_chWindow {cfg : Config} (hw : cfg.windowsDisjoint) (c : Fin 8) :
    decodePeek cfg (BitVec.ofNat 16 (cfg.peekChBase + c.val)) = .peekChctrl c := by
  obtain ⟨hch, henvg, hcs, hes, hdis⟩ := hw
  have ha := toNat_ofNat_window hcs c.isLt
  simp only [decodePeek, if_neg (half_ne_zero ha hch), Config.chWindow_eq_some ha]

/-- With legal windows the envelope window's addresses decode to PEEK.ENVCTRL (R90, D3). -/
theorem decodePeek_envgWindow {cfg : Config} (hw : cfg.windowsDisjoint) (g : Fin 16) :
    decodePeek cfg (BitVec.ofNat 16 (cfg.peekEnvgBase + g.val)) = .peekEnvctrl g := by
  obtain ⟨hch, henvg, hcs, hes, hdis⟩ := hw
  have hg := g.isLt
  have ha := toNat_ofNat_window hes hg
  have hno : cfg.chWindow (BitVec.ofNat 16 (cfg.peekEnvgBase + g.val)) = none :=
    (cfg.chWindow_eq_none_iff _).mpr (by omega)
  simp only [decodePeek, if_neg (half_ne_zero ha henvg), hno, Config.envgWindow_eq_some ha]

/-! ## SUBE and SUBC words -/

/-- A SUBE word with the number the map gives for a field decodes to that field's row, here `i` (R90, R132). -/
theorem decode_sube_number {cfg : Config} {f : EnvgField} {v : Byte} {i : Instr}
    (h : (cfg.envgMap.number f).isSome = true)
    (hi : ∀ sub, cfg.envgMap.field sub = f → decodeSube cfg sub v = i) :
    decode cfg (.sube (subWord ((cfg.envgMap.number f).getD 0) v)) = .ok [i] := by
  rw [decode_subeWord, hi _ (EnvgSubregMap.field_number h)]

/-- A SUBC word with the number the map gives for a field decodes to that field's row, here `i` (R90, R147). -/
theorem decode_subc_number {cfg : Config} {f : ChField} {v : Byte} {i : Instr}
    (h : (cfg.chMap.number f).isSome = true)
    (hi : ∀ sub, cfg.chMap.field sub = f → decodeSubc cfg sub v = i) :
    decode cfg (.subc (subWord ((cfg.chMap.number f).getD 0) v)) = .ok [i] := by
  rw [decode_subcWord, hi _ (ChSubregMap.field_number h)]

/-- The SUBC words of the ten fixed numbers 7..16 decode to the ten selector rows (R154). -/
theorem decode_subc_coefsel (cfg : Config) (k : Fin 10) (v : Byte) :
    decode cfg (.subc (subWord (BitVec.ofNat 16 (7 + k.val)) v)) = .ok [coefselInstr k v] := by
  rw [decode_subcWord, decodeSubc, ChSubregMap.field_coefsel]

/-! ## Decoding the encoder's word -/

/-- Settles O52: one row of the opcode table after the other, by the format of its word. -/
theorem decodeOfEncode : Obligations.DecodeOfEncode := by
  intro cfg i hw hwf
  cases i
  case pokeControl v => exact decode_pokeWord cfg 0 v
  case pokeChsel v => exact decode_pokeWord cfg 1 v
  case pokeEnvselLo v => exact decode_pokeWord cfg 2 v
  case pokeEnvselHi v => exact decode_pokeWord cfg 3 v
  case pokeWptrLo v => exact decode_pokeWord cfg 4 v
  case pokeWptrHi v => exact decode_pokeWord cfg 5 v
  case pokeWdataLo v => exact decode_pokeWord cfg 6 v
  case pokeWdataHi v => exact decode_pokeWord cfg 7 v
  case pokeUnmapped a v =>
    exact (decode_pokeWord cfg a v).trans (by rw [decodePoke_of_ge (of_decide_eq_true hwf)])
  case peekControl => exact decode_peekWord cfg 0 0
  case peekChctrl c => exact (decode_peekWord cfg _ 0).trans (by rw [decodePeek_chWindow hw])
  case peekEnvctrl g => exact (decode_peekWord cfg _ 0).trans (by rw [decodePeek_envgWindow hw])
  case peekUnmapped a =>
    obtain ⟨h0, hc, hg⟩ := of_decide_eq_true hwf
    exact (decode_peekWord cfg a 0).trans (by rw [decodePeek_of_windows_none h0 hc hg])
  case tick => exact decode_hopWord cfg 2 0 0
  case init => exact decode_hopWord cfg 3 0 0
  case destroy => exact decode_hopWord cfg 4 0 0
  case ctlClrEnvsel | ctlClrWptr | ctlClrWdata | ctlRsvd3 | ctlFwdEnvg | ctlFwdChan | ctlRsvd6 | ctlFwdRam => rfl
  case eCtrl | eMult | eHold | eStride =>
    exact decode_sube_number hwf fun sub hf => by rw [decodeSube, hf]
  case eEntry i v => exact (decode_subeWord cfg _ v).trans (by rw [decodeSube, EnvgSubregMap.field_entry])
  case eReserved sub v =>
    exact (decode_subeWord cfg sub v).trans (by rw [decodeSube, of_decide_eq_true hwf])
  case cCtrl v => exact decode_subcWord cfg 0 v
  case cVoll v => exact decode_subcWord cfg 2 v
  case cVolr | cAccmaxLo | cAccmaxHi | cAmpsel | cLstartLo | cLstartHi | cLendLo | cLendHi =>
    exact decode_subc_number hwf fun sub hf => by rw [decodeSubc, hf]
  case cCoefsel0 v => exact decode_subc_coefsel cfg 0 v
  case cCoefsel1 v => exact decode_subc_coefsel cfg 1 v
  case cCoefsel2 v => exact decode_subc_coefsel cfg 2 v
  case cCoefsel3 v => exact decode_subc_coefsel cfg 3 v
  case cCoefsel4 v => exact decode_subc_coefsel cfg 4 v
  case cCoefsel5 v => exact decode_subc_coefsel cfg 5 v
  case cCoefsel6 v => exact decode_subc_coefsel cfg 6 v
  case cCoefsel7 v => exact decode_subc_coefsel cfg 7 v
  case cCoefsel8 v => exact decode_subc_coefsel cfg 8 v
  case cCoefsel9 v => exact decode_subc_coefsel cfg 9 v
  case cReserved sub v =>
    exact (decode_subcWord cfg sub v).trans (by rw [decodeSubc, of_decide_eq_true hwf])

/-! ## The operations the decoder answers -/

/-- POKE's default row is answered outside `0x0000` to `0x0007` only (R90, R117). -/
theorem wellFormed_decodePoke (cfg : Config) (a : Half) (v : Byte) : WellFormed cfg (decodePoke a v) = true := by
  unfold decodePoke
  split_ifs with h0 h1 h2 h3 h4 h5 h6 h7
  case neg =>
    refine decide_eq_true (by_contra fun hlt => ?_)
    have hn : ∀ x : Half, a ≠ x → a.toNat ≠ x.toNat := fun x hx he => hx (BitVec.eq_of_toNat_eq he)
    have n0 := hn 0 h0; have n1 := hn 1 h1; have n2 := hn 2 h2; have n3 := hn 3 h3
    have n4 := hn 4 h4; have n5 := hn 5 h5; have n6 := hn 6 h6; have n7 := hn 7 h7
    simp only [BitVec.reduceToNat] at n0 n1 n2 n3 n4 n5 n6 n7
    omega
  all_goals rfl

/-- PEEK's default row is answered where no window reads (R90, R124). -/
theorem wellFormed_decodePeek (cfg : Config) (a : Half) : WellFormed cfg (decodePeek cfg a) = true := by
  unfold decodePeek
  split_ifs with h0
  · rfl
  · split
    · rfl
    · rfl
    · next hc hg => exact decide_eq_true ⟨h0, hc, hg⟩

theorem wellFormed_coefselInstr (cfg : Config) (k : Fin 10) (v : Byte) :
    WellFormed cfg (coefselInstr k v) = true := by
  match k with
  | 0 | 1 | 2 | 3 | 4 | 5 | 6 | 7 | 8 | 9 => rfl

/-- A row of the envelope multiplexer is answered for a number its map gives that field (R90, R138). -/
theorem wellFormed_decodeSube (cfg : Config) (sub : Half) (v : Byte) :
    WellFormed cfg (decodeSube cfg sub v) = true := by
  unfold decodeSube
  split
  case h_5 => rfl
  case h_6 hf => exact decide_eq_true hf
  all_goals exact EnvgSubregMap.number_isSome ‹_› (by simp) (by simp)

/-- A row of the channel multiplexer is answered for a number its map gives that field (R90, R159). -/
theorem wellFormed_decodeSubc (cfg : Config) (sub : Half) (v : Byte) :
    WellFormed cfg (decodeSubc cfg sub v) = true := by
  unfold decodeSubc
  split
  case h_1 | h_3 => rfl
  case h_2 hf => exact decide_eq_true hf
  case h_8 k _ => exact wellFormed_coefselInstr cfg k v
  all_goals exact ChSubregMap.number_isSome ‹_› (by simp) (by simp) (by simp) (by simp)

/-- A HOP word that decodes is a POKE, a PEEK or one of the three operations without operand (R90). -/
theorem decodeHop_ok {cfg : Config} {w : BitVec 27} {i : Instr} (h : decodeHop cfg w = .ok i) :
    (∃ a v, i = decodePoke a v) ∨ (∃ a, i = decodePeek cfg a) ∨ i = .tick ∨ i = .init ∨ i = .destroy := by
  unfold decodeHop at h
  dsimp only at h
  split_ifs at h <;> cases h
  · exact .inl ⟨_, _, rfl⟩
  · exact .inr (.inl ⟨_, rfl⟩)
  · exact .inr (.inr (.inl rfl))
  · exact .inr (.inr (.inr (.inl rfl)))
  · exact .inr (.inr (.inr (.inr rfl)))

theorem wellFormed_decodeHop {cfg : Config} {w : BitVec 27} {i : Instr} (h : decodeHop cfg w = .ok i) :
    WellFormed cfg i = true := by
  obtain ⟨a, v, rfl⟩ | ⟨a, rfl⟩ | rfl | rfl | rfl := decodeHop_ok h
  · exact wellFormed_decodePoke cfg a v
  · exact wellFormed_decodePeek cfg a
  all_goals rfl

/-- The rows of a CTL byte have no operand, so each is well formed. -/
theorem wellFormed_of_mem_decodeCtl {cfg : Config} {b : Byte} {i : Instr} (h : i ∈ decodeCtl b) :
    WellFormed cfg i = true := by
  rw [mem_decodeCtl] at h
  obtain ⟨-, rfl⟩ | ⟨-, rfl⟩ | ⟨-, rfl⟩ | ⟨-, rfl⟩ | ⟨-, rfl⟩ | ⟨-, rfl⟩ | ⟨-, rfl⟩ | ⟨-, rfl⟩ := h
  all_goals rfl

/-- Settles O53: format by format, each row the decoder answers is a well-formed one. -/
theorem decodedOperationsAreWellFormed : Obligations.DecodedOperationsAreWellFormed := by
  intro cfg w is h i hi
  cases w with
  | hop w =>
    cases hd : decodeHop cfg w with
    | error e => simp [decode, hd, Except.map] at h
    | ok j =>
      simp only [decode, hd, Except.map, Except.ok.injEq] at h
      subst h
      rw [List.mem_singleton.mp hi]
      exact wellFormed_decodeHop hd
  | ctl b =>
    cases h
    exact wellFormed_of_mem_decodeCtl hi
  | sube w =>
    cases h
    rw [List.mem_singleton.mp hi]
    exact wellFormed_decodeSube cfg _ _
  | subc w =>
    cases h
    rw [List.mem_singleton.mp hi]
    exact wellFormed_decodeSubc cfg _ _

/-! ## The words the decoder refuses -/

/-- The kind of a HOP word is its bits 26..24 (R81). -/
theorem hopKind_eq (w : BitVec 27) : w.extractLsb' 24 3 = BitVec.ofNat 3 (w.toNat / 2 ^ 24) := by
  refine BitVec.eq_of_toNat_eq ?_
  rw [BitVec.extractLsb'_toNat, BitVec.toNat_ofNat, Nat.shiftRight_eq_div_pow]

/-- Kinds 5 to 7 are no operations, and the others are (R91). -/
theorem decodeHop_error_iff (cfg : Config) (w : BitVec 27) (e : DecodeError) :
    decodeHop cfg w = .error e ↔ 5 ≤ w.toNat / 2 ^ 24 ∧ e = .notAnOperation (BitVec.ofNat 3 (w.toNat / 2 ^ 24)) := by
  have hk : w.toNat / 2 ^ 24 < 8 := Nat.div_lt_of_lt_mul w.isLt
  unfold decodeHop
  simp only [hopKind_eq]
  generalize w.toNat / 2 ^ 24 = k at hk ⊢
  interval_cases k <;> simp [eq_comm]

/-- Only HOP words can be refused (R91). -/
theorem decode_error_iff (cfg : Config) (w : OpWord) (e : DecodeError) :
    decode cfg w = .error e ↔ ∃ h, w = .hop h ∧ decodeHop cfg h = .error e := by
  cases w with
  | hop h => cases hd : decodeHop cfg h <;> simp [decode, hd, Except.map]
  | ctl b => simp [decode]
  | sube w => simp [decode]
  | subc w => simp [decode]

/-- Settles O54: the decoder's refusals by the kind of the word, and the step's refusal under the decoder's name. -/
theorem onlyHopKindsFiveToSevenAreRefused : Obligations.OnlyHopKindsFiveToSevenAreRefused := by
  refine ⟨fun cfg w => ?_, fun s h rest hp hk => ?_⟩
  · simp only [decode_error_iff, decodeHop_error_iff]
    constructor
    · rintro ⟨e, h, hw, hk, -⟩
      exact ⟨h, hw, hk⟩
    · rintro ⟨h, hw, hk⟩
      exact ⟨_, h, hw, hk, rfl⟩
  · have hd : decode s.cfg (.hop h) = .error (.notAnOperation (BitVec.ofNat 3 (h.toNat / 2 ^ 24))) :=
      (decode_error_iff _ _ _).mpr ⟨h, rfl, (decodeHop_error_iff _ _ _).mpr ⟨hk, rfl⟩⟩
    simp only [Machine.step, hp, Machine.issue, Machine.State.withPending_cfg, hd]

/-- Settles O51: each word's fields are computed and its row is looked up. -/
theorem writtenWordsDecode : Obligations.WrittenWordsDecode :=
  ⟨rfl, rfl, rfl, rfl, rfl, rfl, rfl, rfl, rfl, rfl, rfl⟩

end Sys2Proof

/-! SUPPORT. The statements about every step: what an operation can write, said once by the updates it is made of, the
invariant of the machine, and the fields of a state outside the chip. -/

namespace Sys2Proof.Machine

/-! ## What an operation can write -/

/-- Only POKE.CHSEL writes `CHSEL` (R24). -/
def Instr.writesChsel : Instr → Bool
  | .pokeChsel _ => true
  | _ => false

/-- The operations that write `ENVSEL` (R25): the POKEs of its halves and its clear trigger. -/
def Instr.writesEnvsel : Instr → Bool
  | .pokeEnvselLo _ | .pokeEnvselHi _ | .ctlClrEnvsel => true
  | .pokeControl v => ctlClrEnvselBit v
  | _ => false

/-- The operations that write `WPTR` (R26). -/
def Instr.writesWptr : Instr → Bool
  | .pokeWptrLo _ | .pokeWptrHi _ | .ctlClrWptr => true
  | .pokeControl v => ctlClrWptrBit v
  | _ => false

/-- The operations that write `WDATA` (R27). -/
def Instr.writesWdata : Instr → Bool
  | .pokeWdataLo _ | .pokeWdataHi _ | .ctlClrWdata => true
  | .pokeControl v => ctlClrWdataBit v
  | _ => false

/-- The operations that write `RAM` (R28). -/
def Instr.writesRam : Instr → Bool
  | .ctlFwdRam => true
  | .pokeControl v => ctlFwdRamBit v
  | _ => false

/-- `P` is kept by each of the updates that the operation `i` can be made of: the single registers it writes, the RAM
forward, the two multiplexers' writes of one field, a whole TICK, and INIT. -/
structure Instr.Keeps (cfg : Config) (i : Instr) (P : Chip → Prop) : Prop where
  control : ∀ v c, P c → P (c.setControl v)
  chsel : Instr.writesChsel i = true → ∀ v c, P c → P (c.setChsel v)
  envsel : Instr.writesEnvsel i = true → ∀ x c, P c → P (c.setEnvsel x)
  wptr : Instr.writesWptr i = true → ∀ x c, P c → P (c.setWptr x)
  wdata : Instr.writesWdata i = true → ∀ x c, P c → P (c.setWdata x)
  ram : Instr.writesRam i = true → ∀ c, P c → P c.fwdRam
  envg : ∀ f v c, P c → P (c.broadcastEnvg (Envg.writeField f v))
  chan : ∀ f v c, P c → P (c.broadcastCh (Channel.writeField f v))
  tick : i = .tick → ∀ c, P c → P (c.tick cfg).2
  init : i = .init → P Chip.zero

/-- What a performed trigger keeps, the trigger on its bit keeps. -/
theorem onBit_of_keeps {P : Chip → Prop} {f : Chip → Chip} {b : Bool} (hf : b = true → ∀ c, P c → P (f c)) {c : Chip}
    (h : P c) : P (onBit b f c) := by
  cases b
  · exact h
  · exact hf rfl c h

/-- POKE.CONTROL stores the byte and performs its triggers, so it keeps what each of them keeps (R101). -/
theorem Instr.Keeps.writeControl {cfg : Config} {v : Byte} {P : Chip → Prop} (h : Instr.Keeps cfg (.pokeControl v) P)
    {c : Chip} (hc : P c) : P (Chip.writeControl cfg v c) := by
  refine onBit_of_keeps h.ram (onBit_of_keeps (fun _ c => h.chan _ _ c) (onBit_of_keeps (fun _ c => h.envg _ _ c) ?_))
  refine onBit_of_keeps (fun hb => h.wdata hb 0) (onBit_of_keeps (fun hb => h.wptr hb 0) ?_)
  exact onBit_of_keeps (fun hb => h.envsel hb 0) (h.control v c hc)

/-- All an operation can do to a chip: what each of its updates keeps, the operation keeps. -/
theorem Instr.Keeps.effect {cfg : Config} {i : Instr} {P : Chip → Prop} (h : Instr.Keeps cfg i P) {c : Chip}
    (hc : P c) : P (Instr.effect cfg i c) := by
  cases i
  case pokeControl v => exact h.writeControl hc
  case pokeChsel v => exact h.chsel rfl _ c hc
  case pokeEnvselLo | pokeEnvselHi | ctlClrEnvsel => exact h.envsel rfl _ c hc
  case pokeWptrLo | pokeWptrHi | ctlClrWptr => exact h.wptr rfl _ c hc
  case pokeWdataLo | pokeWdataHi | ctlClrWdata => exact h.wdata rfl _ c hc
  case pokeUnmapped | peekControl | peekChctrl | peekEnvctrl | peekUnmapped | destroy | ctlRsvd3 | ctlRsvd6 | eReserved
    | cReserved => exact hc
  case tick => exact h.tick rfl c hc
  case init => exact h.init rfl
  case ctlFwdEnvg => exact h.envg _ _ c hc
  case ctlFwdChan => exact h.chan _ _ c hc
  case ctlFwdRam => exact h.ram rfl c hc
  case eCtrl v => exact h.envg .ctrl v c hc
  case eMult v => exact h.envg .mult v c hc
  case eHold v => exact h.envg .hold v c hc
  case eStride v => exact h.envg .stride v c hc
  case eEntry i v => exact h.envg (.entry i) v c hc
  case cCtrl v => exact h.chan .ctrl v c hc
  case cVoll v => exact h.chan .voll v c hc
  case cVolr v => exact h.chan .volr v c hc
  case cAccmaxLo v => exact h.chan .accmaxLo v c hc
  case cAccmaxHi v => exact h.chan .accmaxHi v c hc
  case cAmpsel v => exact h.chan .ampsel v c hc
  case cCoefsel0 v => exact h.chan (.coefsel 0) v c hc
  case cCoefsel1 v => exact h.chan (.coefsel 1) v c hc
  case cCoefsel2 v => exact h.chan (.coefsel 2) v c hc
  case cCoefsel3 v => exact h.chan (.coefsel 3) v c hc
  case cCoefsel4 v => exact h.chan (.coefsel 4) v c hc
  case cCoefsel5 v => exact h.chan (.coefsel 5) v c hc
  case cCoefsel6 v => exact h.chan (.coefsel 6) v c hc
  case cCoefsel7 v => exact h.chan (.coefsel 7) v c hc
  case cCoefsel8 v => exact h.chan (.coefsel 8) v c hc
  case cCoefsel9 v => exact h.chan (.coefsel 9) v c hc
  case cLstartLo v => exact h.chan .lstartLo v c hc
  case cLstartHi v => exact h.chan .lstartHi v c hc
  case cLendLo v => exact h.chan .lendLo v c hc
  case cLendHi v => exact h.chan .lendHi v c hc

/-! ## What a step can do -/

/-- All a step can do: nothing on an idle chip, else the operations its first word stands for (R258, log 1). -/
theorem step_next {s t : State} (h : step s = .next t) :
    s.pending = [] ∧ t = s ∨
      ∃ w rest is, s.pending = w :: rest ∧ decode s.cfg w = .ok is ∧ runAll is (s.withPending rest) = .next t := by
  unfold step at h
  split at h
  · next hp =>
    cases h
    exact .inl ⟨hp, rfl⟩
  · next w rest hp =>
    unfold issue at h
    split at h
    · next is hd => exact .inr ⟨w, rest, is, hp, hd, h⟩
    · cases h

/-- What an operation keeps, a step keeps, on the state with the first word taken off. -/
theorem step_keeps {P : State → Prop} (hP : ∀ i s t, P s → exec i s = .next t → P t) {s t : State}
    (hs : P (s.withPending s.pending.tail)) (h : step s = .next t) : P t := by
  obtain ⟨hp, rfl⟩ | ⟨w, rest, is, hp, -, hr⟩ := step_next h
  · rw [hp] at hs
    rwa [show t = t.withPending [] by rw [← hp]; rfl]
  · rw [hp] at hs
    exact runAll_keeps hP hs hr

/-- Settles O55: the word that heads the list decodes, so the step is the run of what it decodes to. -/
theorem stepRunsTheDecodedOperation : Obligations.StepRunsTheDecodedOperation := by
  intro s w rest hp
  have key : ∀ is, decode s.cfg w = .ok is → step s = runAll is { s with pending := rest } := fun is hd => by
    simp only [step, hp, issue, State.withPending_cfg, hd]
    rfl
  exact ⟨fun i hd => by rw [key [i] hd, runAll_single], key⟩

/-- Settles O56: an empty list of words is the idle case of `step`. -/
theorem idleChipKeepsItsState : Obligations.IdleChipKeepsItsState :=
  fun s hp => by simp only [step, hp]

/-- Settles O59: each operation keeps the parameters and the words and only adds to what was observed. -/
theorem stepKeepsParametersAndHistory : Obligations.StepKeepsParametersAndHistory := by
  intro s t h
  refine step_keeps
    (P := fun u => u.cfg = s.cfg ∧ (∃ new, u.observed = s.observed ++ new) ∧ u.pending = s.pending.tail) ?_
    ⟨rfl, ⟨[], (List.append_nil _).symm⟩, rfl⟩ h
  rintro i u v ⟨hcfg, ⟨new, hnew⟩, hpend⟩ hv
  obtain ⟨-, rfl⟩ := exec_next hv
  exact ⟨hcfg, ⟨new ++ Instr.returned u.cfg u.chip i, by rw [Instr.after_observed, hnew, List.append_assoc]⟩, hpend⟩

/-! ## The invariant -/

/-- A write of an envelope sub-register keeps the table's canonical form and the mark (R133 to R138). -/
theorem Envg.writeField_atRest (f : EnvgField) (v : Byte) {e : Envg} (h : e.atRest) : (e.writeField f v).atRest := by
  cases f
  case entry i => exact ⟨Memory.wf_write h.1 i.isLt v, h.2⟩
  all_goals exact h

/-- A write of a channel sub-register touches no counter, cursor or stage (R148 to R159). -/
theorem Channel.writeField_private (f : ChField) (v : Byte) (h : Channel) :
    (h.writeField f v).acc = h.acc ∧ (h.writeField f v).rptr = h.rptr ∧ (h.writeField f v).stage0 = h.stage0 ∧
      (h.writeField f v).stage1 = h.stage1 := by
  cases f <;> exact ⟨rfl, rfl, rfl, rfl⟩

/-- The part of the invariant that speaks of the chip. -/
def Chip.sound (width : Nat) (c : Chip) : Prop := c.atRest ∧ ∀ i : Fin 8, c.channels[i].delaysFit width

theorem State.inv_iff (s : State) : s.Inv ↔ s.cfg.wf ∧ s.chip.sound s.cfg.accWidth := by
  constructor
  · rintro ⟨hrest, hwf, hd⟩
    exact ⟨hwf, hrest, hd⟩
  · rintro ⟨hwf, hrest, hd⟩
    exact ⟨hrest, hwf, hd⟩

/-- Zero delays fit every width (R53). -/
theorem DelayLine.zero_fits (width : Nat) : DelayLine.fits width ⟨0, 0⟩ := by
  have h : (0 : Int) < 2 ^ (width - 1) := by positivity
  have h' := neg_nonpos.mpr h.le
  exact ⟨⟨h', h⟩, h', h⟩

theorem Chip.zero_envgs (g : Fin 16) : Chip.zero.envgs[g] = Envg.zero := Vector.getElem_replicate g.isLt

theorem Chip.zero_channels (i : Fin 8) : Chip.zero.channels[i] = Channel.zero := Vector.getElem_replicate i.isLt

/-- The chip that INIT leaves (R53). -/
theorem Chip.zero_sound (width : Nat) : Chip.zero.sound width := by
  have hd := DelayLine.zero_fits width
  refine ⟨⟨Memory.wf_nil _, fun g => ?_⟩, fun i => ?_⟩
  · rw [Chip.zero_envgs]
    exact ⟨Memory.wf_nil _, rfl⟩
  · rw [Chip.zero_channels]
    exact ⟨⟨hd, hd⟩, hd, hd⟩

/-- A tick leaves every generator at rest: marked ones are updated, and no update writes the table (R185, R233). -/
theorem Chip.beginTick_atRest (cfg : Config) {c : Chip} {g : Fin 16} (h : c.envgs[g].atRest) :
    (c.beginTick cfg).envgs[g].atRest := by
  obtain ⟨-, -, -, hent⟩ := Envg.update_frame cfg.strideCompare c.envgs[g]
  rw [Fin.getElem_fin, Chip.beginTick_envgs]
  split_ifs
  · exact ⟨(congrArg (Memory.wf 128) hent).trans h.1, rfl⟩
  · exact ⟨h.1, rfl⟩

/-- A tick keeps the chip's part of the invariant (R185, R198, R230). -/
theorem Chip.tick_sound {cfg : Config} (hw : 0 < cfg.accWidth) {c : Chip} (h : c.sound cfg.accWidth) :
    (c.tick cfg).2.sound cfg.accWidth := by
  obtain ⟨⟨hram, hg⟩, hd⟩ := h
  refine ⟨⟨by rwa [Chip.tick_ram], fun g => ?_⟩, Chip.tick_delaysFit hw hd⟩
  rw [Chip.tick_envgs]
  exact Chip.beginTick_atRest cfg (hg g)

theorem Chip.broadcastEnvg_sound {width : Nat} {f : Envg → Envg} (hf : ∀ e : Envg, e.atRest → (f e).atRest) {c : Chip}
    (h : c.sound width) : (c.broadcastEnvg f).sound width := by
  obtain ⟨⟨hram, hg⟩, hd⟩ := h
  refine ⟨⟨by rwa [Chip.broadcastEnvg_ram], fun g => ?_⟩, by rwa [Chip.broadcastEnvg_channels]⟩
  rw [Fin.getElem_fin, Chip.broadcastEnvg_envgs]
  split_ifs
  · exact hf _ (hg g)
  · exact hg g

theorem Chip.broadcastCh_sound {width : Nat} {f : Channel → Channel}
    (hf : ∀ h : Channel, h.delaysFit width → (f h).delaysFit width) {c : Chip}
    (h : c.sound width) : (c.broadcastCh f).sound width := by
  obtain ⟨⟨hram, hg⟩, hd⟩ := h
  refine ⟨⟨by rwa [Chip.broadcastCh_ram], by rwa [Chip.broadcastCh_envgs]⟩, fun i => ?_⟩
  rw [Fin.getElem_fin, Chip.broadcastCh_channels]
  split_ifs
  · exact hf _ (hd i)
  · exact hd i

/-- Every update keeps the chip's part of the invariant. -/
theorem Chip.sound_kept {cfg : Config} (hw : 0 < cfg.accWidth) (i : Instr) :
    Instr.Keeps cfg i (Chip.sound cfg.accWidth) where
  control _ _ h := h
  chsel _ _ _ h := h
  envsel _ _ _ h := h
  wptr _ _ _ h := h
  wdata _ _ _ h := h
  ram _ c h := ⟨⟨Memory.wf_write h.1.1 (ramAddress c.wptr).isLt _, h.1.2⟩, h.2⟩
  envg f v _ h := Chip.broadcastEnvg_sound (fun _ => Envg.writeField_atRest f v) h
  chan f v _ h := Chip.broadcastCh_sound (fun x hx => by
    obtain ⟨-, -, h0, h1⟩ := Channel.writeField_private f v x
    rwa [Channel.delaysFit, h0, h1]) h
  tick _ _ h := Chip.tick_sound hw h
  init _ := Chip.zero_sound _

/-- Every operation keeps the invariant. -/
theorem exec_keeps_inv (i : Instr) (s t : State) (hs : s.Inv) (h : exec i s = .next t) : t.Inv := by
  obtain ⟨-, rfl⟩ := exec_next h
  rw [State.inv_iff] at hs ⊢
  obtain ⟨hwf, hc⟩ := hs
  have hacc : 0 < s.cfg.accWidth := lt_of_lt_of_le (by decide) hwf.2.2.2.1
  exact ⟨hwf, (Chip.sound_kept hacc i).effect hc⟩

/-- Settles O58: the invariant does not look at the pending words, and every operation keeps it. -/
theorem stepKeepsTheInvariant : Obligations.StepKeepsTheInvariant :=
  fun _ _ hs h => step_keeps exec_keeps_inv hs h

/-- The default parameters are legal (R10). -/
theorem Config.default_wf : Config.default.wf := by decide +kernel

/-- Settles O57: the reset chip is the one INIT leaves, and the default parameters are legal. -/
theorem resetIsAtRest : Obligations.ResetIsAtRest :=
  (State.inv_iff _).mpr ⟨Config.default_wf, Chip.zero_sound _⟩

end Sys2Proof.Machine

/-! SUPPORT. The statements about INIT and DESTROY, about completion, about the register bus, and about what no operation
changes besides its own rows. -/

namespace Sys2Proof.Machine

/-! ## INIT, DESTROY and completion -/

/-- Settles O1: INIT leaves `Chip.zero`, whose entities are all the zero entity. -/
theorem initZeroesEverything : Obligations.InitZeroesEverything := by
  intro s
  refine ⟨(s.withChip Chip.zero).withLife .ready, rfl, rfl, rfl, rfl, rfl, rfl, rfl, rfl, rfl, rfl, fun a => rfl,
    fun g => ?_, fun c => ?_⟩
  · rw [State.withLife_chip, State.withChip_chip, Chip.zero_envgs]
    exact ⟨rfl, rfl, rfl, rfl, fun i => rfl, rfl, rfl, rfl⟩
  · rw [State.withLife_chip, State.withChip_chip, Chip.zero_channels]
    exact ⟨rfl, rfl, rfl, rfl, rfl, fun k => Vector.getElem_replicate k.isLt, rfl, rfl, rfl, rfl, rfl, rfl⟩

/-- Settles O2: reset is written as the state INIT leaves. -/
theorem resetIsWhatInitLeaves : Obligations.ResetIsWhatInitLeaves :=
  fun _ _ => rfl

/-- Settles O3: on a ready chip the guard of DESTROY gives its next state. -/
theorem destroyKeepsTheChip : Obligations.DestroyKeepsTheChip :=
  fun _ h => State.whenReady_ready h

theorem State.whenReady_uninitialised {s t : State} (h : s.life = .uninitialised) :
    s.whenReady t = .refused .notInitialised := by
  simp [State.whenReady, h]

theorem State.whenReady_destroyed {s t : State} (h : s.life = .destroyed) : s.whenReady t = .refused .afterDestroy := by
  simp [State.whenReady, h]

/-- Settles O4: every operation but INIT stands behind the ready guard. -/
theorem outsideLifeOnlyInitRuns : Obligations.OutsideLifeOnlyInitRuns := by
  intro i s hi
  rw [exec_eq hi]
  exact ⟨State.whenReady_uninitialised, State.whenReady_destroyed, _, exec_init s, rfl⟩

/-- Only DESTROY ends the chip's life (R275). -/
theorem Instr.lifeAfter_eq_ready (i : Instr) : i = .destroy ∨ Instr.lifeAfter i = .ready := by
  unfold Instr.lifeAfter
  split
  · exact .inl rfl
  · exact .inr rfl

/-- Settles O5: on a ready chip the next state of `i` is `Instr.after i`. -/
theorem everyOperationCompletes : Obligations.EveryOperationCompletes :=
  fun i _ h => ⟨_, exec_ready i h, Instr.lifeAfter_eq_ready i⟩

/-! ## Half writes -/

/-- One half write to a staging register: `true` is the high half (R111 to R116). -/
def orHalf (x : Half) (w : Bool × Byte) : Half := if w.1 then orHigh x w.2 else orLow x w.2

/-- The OR of the bytes written to one half. -/
theorem foldl_or_byte (l : List (Bool × Byte)) (b : Byte) :
    l.foldl (fun acc w => acc ||| w.2) b = b ||| l.foldl (fun acc w => acc ||| w.2) 0 := by
  induction l generalizing b with
  | nil => simp
  | cons w l ih =>
    rw [List.foldl_cons, List.foldl_cons, ih (b ||| w.2), ih (0 ||| w.2), BitVec.or_assoc]
    simp

/-- Half writes in any order leave the OR of what was held, all low bytes and all high bytes (R118). -/
theorem foldl_orHalf (ws : List (Bool × Byte)) (x : Half) :
    ws.foldl orHalf x =
      x ||| ((ws.filter fun w => !w.1).foldl (fun acc w => acc ||| w.2) (0 : Byte)).setWidth 16 |||
        (((ws.filter fun w => w.1).foldl (fun acc w => acc ||| w.2) (0 : Byte)).setWidth 16 <<< 8) := by
  induction ws generalizing x with
  | nil => simp
  | cons w ws ih =>
    obtain ⟨_ | _, v⟩ := w
    · simp only [List.foldl_cons, ih, orHalf, orLow, List.filter_cons, Bool.not_false, if_true, Bool.false_eq_true,
        if_false, foldl_or_byte _ (0 ||| v), BitVec.setWidth_or]
      ac_rfl
    · simp only [List.foldl_cons, ih, orHalf, orHigh, List.filter_cons, Bool.not_true, if_true, Bool.false_eq_true,
        if_false, foldl_or_byte _ (0 ||| v), BitVec.setWidth_or, BitVec.shiftLeft_or_distrib]
      ac_rfl

/-- Half writes to one register, read by `get` and replaced by `set`, run one after the other. -/
theorem runAll_halves {low high : Byte → Instr} {get : Chip → Half} {set : Half → Chip → Chip}
    (hlow : ∀ v s, exec (low v) s = s.act fun c => set (orLow (get c) v) c)
    (hhigh : ∀ v s, exec (high v) s = s.act fun c => set (orHigh (get c) v) c)
    (get_set : ∀ x c, get (set x c) = x) (set_set : ∀ x y c, set x (set y c) = set x c)
    (set_get : ∀ c, set (get c) c = c) (ws : List (Bool × Byte)) {s : State} (h : s.life = .ready) :
    runAll (ws.map fun w => if w.1 then high w.2 else low w.2) s =
      .next (s.withChip (set (ws.foldl orHalf (get s.chip)) s.chip)) := by
  induction ws generalizing s with
  | nil => simp [set_get]
  | cons w ws ih =>
    have hw : exec (if w.1 then high w.2 else low w.2) s =
        .next (s.withChip (set (orHalf (get s.chip) w) s.chip)) := by
      unfold orHalf
      split_ifs
      · rw [hhigh, State.act_ready h]
      · rw [hlow, State.act_ready h]
    have ih := ih (s := s.withChip (set (orHalf (get s.chip) w) s.chip)) h
    rw [State.withChip_chip, get_set, set_set] at ih
    rw [List.map_cons, runAll_cons_next hw, ih, List.foldl_cons]
    rfl

/-- Settles O8: the three staging registers are three readings of one law of half writes. -/
theorem stagingWritesAccumulate : Obligations.StagingWritesAccumulate := by
  intro ws s h
  simp only [← foldl_orHalf]
  refine ⟨?_, ?_, ?_⟩
  · exact runAll_halves (low := .pokeWptrLo) (high := .pokeWptrHi) (get := Chip.wptr) (set := Chip.setWptr)
      (fun _ _ => rfl) (fun _ _ => rfl) (fun _ _ => rfl) (fun _ _ _ => rfl) (fun _ => rfl) ws h
  · exact runAll_halves (low := .pokeEnvselLo) (high := .pokeEnvselHi) (get := Chip.envsel) (set := Chip.setEnvsel)
      (fun _ _ => rfl) (fun _ _ => rfl) (fun _ _ => rfl) (fun _ _ _ => rfl) (fun _ => rfl) ws h
  · exact runAll_halves (low := .pokeWdataLo) (high := .pokeWdataHi) (get := Chip.wdata) (set := Chip.setWdata)
      (fun _ _ => rfl) (fun _ _ => rfl) (fun _ _ => rfl) (fun _ _ _ => rfl) (fun _ => rfl) ws h

/-! ## POKE.UNMAPPED and the control byte -/

/-- Settles O9: from address 8 on POKE has its default row, whose effect is none. -/
theorem pokeUnmappedDoesNothing : Obligations.PokeUnmappedDoesNothing :=
  fun _ v => ⟨fun ha => decodePoke_of_ge ha v, fun _ h => exec_of_returned_nil h rfl rfl⟩

/-- The mask `0xB7` is the six bits with a trigger (R102, R109). -/
theorem triggerBits_of_mask_zero : ∀ v : Byte, v &&& 0xB7 = 0 →
    ctlClrEnvselBit v = false ∧ ctlClrWptrBit v = false ∧ ctlClrWdataBit v = false ∧ ctlFwdEnvgBit v = false ∧
      ctlFwdChanBit v = false ∧ ctlFwdRamBit v = false := by
  decide

/-- Settles O12: the two reserved rows have no effect, and without a trigger bit only the byte is stored. -/
theorem reservedControlBitsTriggerNothing : Obligations.ReservedControlBitsTriggerNothing := by
  refine fun s h => ⟨exec_of_returned_nil h rfl rfl, exec_of_returned_nil h rfl rfl, fun v hv => ?_⟩
  obtain ⟨h0, h1, h2, h4, h5, h7⟩ := triggerBits_of_mask_zero v hv
  have hw : Chip.writeControl s.cfg v s.chip = s.chip.setControl v := by
    simp only [Chip.writeControl, onBit, h0, h1, h2, h4, h5, h7, Bool.false_eq_true, if_false]
  exact (State.act_ready h).trans (by rw [hw]; rfl)

/-- A trigger on its bit is its row, run where the bit is set (R83). -/
theorem runAll_onBit {i : Instr} {f : Chip → Chip} {s : State} (h : s.life = .ready)
    (hi : ∀ c, exec i (s.withChip c) = (s.withChip c).act f) (b : Bool) (is : List Instr) (c : Chip) :
    runAll ((if b then [i] else []) ++ is) (s.withChip c) = runAll is (s.withChip (onBit b f c)) := by
  cases b
  · rfl
  · exact runAll_cons_next ((hi c).trans (State.act_ready h))

/-- The rows of a control byte, run in ascending bit order, are the triggers of its set bits (R102, D8). -/
theorem runAll_decodeCtl (v : Byte) {s : State} (h : s.life = .ready) :
    runAll (decodeCtl v) (s.withChip (s.chip.setControl v)) =
      .next (s.withChip (Chip.writeControl s.cfg v s.chip)) := by
  have skip : ∀ b c, onBit b id c = c := fun b c => ite_self c
  rw [decodeCtl, ← List.append_nil (_ ++ _)]
  simp only [List.append_assoc]
  rw [runAll_onBit (f := Chip.clrEnvsel) h fun _ => rfl, runAll_onBit (f := Chip.clrWptr) h fun _ => rfl,
    runAll_onBit (f := Chip.clrWdata) h fun _ => rfl, runAll_onBit (f := id) h fun _ => rfl,
    runAll_onBit (f := Chip.fwdEnvg s.cfg) h fun _ => rfl, runAll_onBit (f := Chip.fwdChan s.cfg) h fun _ => rfl,
    runAll_onBit (f := id) h fun _ => rfl, runAll_onBit (f := Chip.fwdRam) h fun _ => rfl, skip, skip]
  rfl

/-- Settles O13: both sides are the triggers of the set bits on the stored byte; none of them writes `CONTROL` or
`CHSEL`. -/
theorem pokeControlPerformsItsSetBits : Obligations.PokeControlPerformsItsSetBits := by
  intro s v h
  have hx : exec (.pokeControl v) s = .next (s.withChip (Chip.writeControl s.cfg v s.chip)) := State.act_ready h
  refine ⟨hx.trans (runAll_decodeCtl v h).symm, _, hx, ?_, ?_, rfl⟩
  · rw [State.withChip_chip, Chip.writeControl_keeps Chip.control]
    · rfl
    all_goals exact fun _ c => by simp
  · rw [State.withChip_chip, Chip.writeControl_keeps Chip.chsel]
    · rfl
    all_goals exact fun _ c => by simp

/-! ## Forwards -/

theorem stagedByte_eq_ofNat (c : Chip) : stagedByte c = BitVec.ofNat 8 c.wdata.toNat :=
  BitVec.eq_of_toNat_eq (by rw [stagedByte_toNat, BitVec.toNat_ofNat])

/-- The high byte of `WDATA` as a number (log 14). -/
theorem shiftRight_eight_eq_ofNat (x : Half) : x >>> 8 = BitVec.ofNat 16 (x.toNat / 256) := by
  refine BitVec.eq_of_toNat_eq ?_
  rw [BitVec.toNat_ushiftRight, BitVec.toNat_ofNat, Nat.shiftRight_eq_div_pow]
  omega

/-- An operation that changes the chip only depends on what its update does to the chip of the state. -/
theorem State.act_congr {f g : Chip → Chip} {s : State} (h : f s.chip = g s.chip) : s.act f = s.act g := by
  rw [State.act, State.act, h]

/-- Settles O14: a forward is the multiplexer's write of the staged pair, as the staged word's row is. -/
theorem forwardsRunTheStagedWord : Obligations.ForwardsRunTheStagedWord := by
  intro s sub val
  have hsub : sub = stagedSub s.cfg s.chip := by
    simp only [sub, stagedSub]
    cases s.cfg.subregSrc
    · rfl
    · exact (shiftRight_eight_eq_ofNat _).symm
  have hval : val = stagedByte s.chip := (stagedByte_eq_ofNat _).symm
  refine ⟨?_, ?_, fun h => ⟨⟨_, exec_of_returned_nil h rfl rfl, rfl⟩, _, exec_of_returned_nil h rfl rfl, rfl⟩⟩
  · rw [exec_decodeSube, hsub, hval]
    exact State.act_congr (f := Chip.fwdEnvg s.cfg) rfl
  · rw [exec_decodeSubc, hsub, hval]
    exact State.act_congr (f := Chip.fwdChan s.cfg) rfl

/-! ## PEEK -/

/-- Settles O16: each of the three PEEK rows answers its control byte. -/
theorem peekReturnsTheControlByte : Obligations.PeekReturnsTheControlByte :=
  fun _ h => ⟨State.answer_ready h, fun _ => State.answer_ready h, fun _ => State.answer_ready h⟩

/-- Settles O18: whichever row the address has, it answers one of the 25 control bytes or the sentinel. -/
theorem peekSeesOnlyControlBytes : Obligations.PeekSeesOnlyControlBytes := by
  intro s s' addr h h' hcfg hcontrol hchan henvg
  have hd : decodePeek s'.cfg addr = decodePeek s.cfg addr := by rw [hcfg]
  rw [hd]
  unfold decodePeek
  split_ifs
  · exact ⟨_, State.answer_ready h, hcontrol ▸ State.answer_ready h'⟩
  · split
    · next c _ => exact ⟨_, State.answer_ready h, hchan c ▸ State.answer_ready h'⟩
    · next g _ _ => exact ⟨_, State.answer_ready h, henvg g ▸ State.answer_ready h'⟩
    · exact ⟨_, State.answer_ready h, State.answer_ready h'⟩

/-! ## What only its own rows write -/

/-- A chip whose select masks, staging registers and RAM are those of `c₀`, but for the ones `i` writes. -/
structure Chip.SameRegisters (i : Instr) (c₀ c : Chip) : Prop where
  chsel : Instr.writesChsel i = false → c.chsel = c₀.chsel
  envsel : Instr.writesEnvsel i = false → c.envsel = c₀.envsel
  wptr : Instr.writesWptr i = false → c.wptr = c₀.wptr
  wdata : Instr.writesWdata i = false → c.wdata = c₀.wdata
  ram : Instr.writesRam i = false → c.ram = c₀.ram

/-- An update that leaves all five as they are. -/
theorem Chip.SameRegisters.of_eq {i : Instr} {c₀ c d : Chip} (h : Chip.SameRegisters i c₀ c) (hc : d.chsel = c.chsel)
    (he : d.envsel = c.envsel) (hp : d.wptr = c.wptr) (hd : d.wdata = c.wdata) (hr : d.ram = c.ram) :
    Chip.SameRegisters i c₀ d :=
  ⟨fun hn => hc.trans (h.chsel hn), fun hn => he.trans (h.envsel hn), fun hn => hp.trans (h.wptr hn),
    fun hn => hd.trans (h.wdata hn), fun hn => hr.trans (h.ram hn)⟩

/-- Every update writes its own register only. -/
theorem Chip.sameRegisters_kept (cfg : Config) {i : Instr} (hi : i ≠ .init) (c₀ : Chip) :
    Instr.Keeps cfg i (Chip.SameRegisters i c₀) where
  control _ _ h := ⟨h.chsel, h.envsel, h.wptr, h.wdata, h.ram⟩
  chsel hw _ _ h := ⟨fun hn => absurd hw (by simp [hn]), h.envsel, h.wptr, h.wdata, h.ram⟩
  envsel hw _ _ h := ⟨h.chsel, fun hn => absurd hw (by simp [hn]), h.wptr, h.wdata, h.ram⟩
  wptr hw _ _ h := ⟨h.chsel, h.envsel, fun hn => absurd hw (by simp [hn]), h.wdata, h.ram⟩
  wdata hw _ _ h := ⟨h.chsel, h.envsel, h.wptr, fun hn => absurd hw (by simp [hn]), h.ram⟩
  ram hw _ h := ⟨h.chsel, h.envsel, h.wptr, h.wdata, fun hn => absurd hw (by simp [hn])⟩
  envg _ _ c h := h.of_eq (Chip.broadcastEnvg_chsel _ c) (Chip.broadcastEnvg_envsel _ c) (Chip.broadcastEnvg_wptr _ c)
    (Chip.broadcastEnvg_wdata _ c) (Chip.broadcastEnvg_ram _ c)
  chan _ _ c h := h.of_eq (Chip.broadcastCh_chsel _ c) (Chip.broadcastCh_envsel _ c) (Chip.broadcastCh_wptr _ c)
    (Chip.broadcastCh_wdata _ c) (Chip.broadcastCh_ram _ c)
  tick _ c h := h.of_eq (Chip.tick_chsel cfg c) (Chip.tick_envsel cfg c) (Chip.tick_wptr cfg c) (Chip.tick_wdata cfg c)
    (Chip.tick_ram cfg c)
  init h := absurd h hi

theorem exec_sameRegisters {i : Instr} {s t : State} (h : exec i s = .next t) (hi : i ≠ .init) :
    Chip.SameRegisters i s.chip t.chip := by
  obtain ⟨-, rfl⟩ := exec_next h
  exact (Chip.sameRegisters_kept s.cfg hi s.chip).effect ⟨fun _ => rfl, fun _ => rfl, fun _ => rfl, fun _ => rfl,
    fun _ => rfl⟩

/-- Settles O27: the rows the statement names are those that write the register. -/
theorem stagingIsSticky : Obligations.StagingIsSticky := by
  intro i s t h hi
  have hsame := exec_sameRegisters h hi
  refine ⟨fun hc => hsame.chsel ?_, fun hl hh ht hb => hsame.envsel ?_, fun hl hh ht hb => hsame.wptr ?_,
    fun hl hh ht hb => hsame.wdata ?_⟩
  · cases i
    case pokeChsel v => exact absurd rfl (hc v)
    all_goals rfl
  · cases i
    case pokeEnvselLo v => exact absurd rfl (hl v)
    case pokeEnvselHi v => exact absurd rfl (hh v)
    case ctlClrEnvsel => exact absurd rfl ht
    case pokeControl v => exact hb v rfl
    all_goals rfl
  · cases i
    case pokeWptrLo v => exact absurd rfl (hl v)
    case pokeWptrHi v => exact absurd rfl (hh v)
    case ctlClrWptr => exact absurd rfl ht
    case pokeControl v => exact hb v rfl
    all_goals rfl
  · cases i
    case pokeWdataLo v => exact absurd rfl (hl v)
    case pokeWdataHi v => exact absurd rfl (hh v)
    case ctlClrWdata => exact absurd rfl ht
    case pokeControl v => exact hb v rfl
    all_goals rfl

/-- Settles O28: the rows the statement names are those that write the RAM. -/
theorem onlyFwdRamWritesRam : Obligations.OnlyFwdRamWritesRam := by
  intro i s t h hi hr hb
  refine (exec_sameRegisters h hi).ram ?_
  cases i
  case ctlFwdRam => exact absurd rfl hr
  case pokeControl v => exact hb v rfl
  all_goals rfl

/-- A chip whose cursors, counters, marks, coefficients and delay lines are those of `c₀`. -/
def Chip.SamePrivate (c₀ c : Chip) : Prop :=
  (∀ g : Fin 16, c.envgs[g].ce = c₀.envgs[g].ce ∧ c.envgs[g].cs = c₀.envgs[g].cs ∧ c.envgs[g].sq = c₀.envgs[g].sq) ∧
    ∀ i : Fin 8, c.channels[i].acc = c₀.channels[i].acc ∧ c.channels[i].rptr = c₀.channels[i].rptr ∧
      c.channels[i].stage0 = c₀.channels[i].stage0 ∧ c.channels[i].stage1 = c₀.channels[i].stage1

/-- A write of an envelope sub-register moves no cursor or counter and marks nothing (R133 to R138). -/
theorem Envg.writeField_private (f : EnvgField) (v : Byte) (e : Envg) :
    (e.writeField f v).ce = e.ce ∧ (e.writeField f v).cs = e.cs ∧ (e.writeField f v).sq = e.sq := by
  cases f <;> exact ⟨rfl, rfl, rfl⟩

/-- No update but a TICK and INIT touches the private state (R30, R40). -/
theorem Chip.samePrivate_kept (cfg : Config) {i : Instr} (hi : i ≠ .init) (ht : i ≠ .tick) (c₀ : Chip) :
    Instr.Keeps cfg i (Chip.SamePrivate c₀) where
  control _ _ h := h
  chsel _ _ _ h := h
  envsel _ _ _ h := h
  wptr _ _ _ h := h
  wdata _ _ _ h := h
  ram _ _ h := h
  envg f v c h := by
    refine ⟨fun g => ?_, by rw [Chip.broadcastEnvg_channels]; exact h.2⟩
    obtain ⟨hce, hcs, hsq⟩ := Envg.writeField_private f v c.envgs[g]
    rw [Fin.getElem_fin, Chip.broadcastEnvg_envgs]
    split_ifs
    · exact ⟨hce.trans (h.1 g).1, hcs.trans (h.1 g).2.1, hsq.trans (h.1 g).2.2⟩
    · exact h.1 g
  chan f v c h := by
    refine ⟨by rw [Chip.broadcastCh_envgs]; exact h.1, fun k => ?_⟩
    obtain ⟨hacc, hrptr, h0, h1⟩ := Channel.writeField_private f v c.channels[k]
    rw [Fin.getElem_fin, Chip.broadcastCh_channels]
    split_ifs
    · exact ⟨hacc.trans (h.2 k).1, hrptr.trans (h.2 k).2.1, h0.trans (h.2 k).2.2.1, h1.trans (h.2 k).2.2.2⟩
    · exact h.2 k
  tick h := absurd h ht
  init h := absurd h hi

/-- Settles O29: the private state of the chip before is kept by every update the operation is made of. -/
theorem onlyTickMovesPrivateState : Obligations.OnlyTickMovesPrivateState := by
  intro i s t h hi ht
  obtain ⟨-, rfl⟩ := exec_next h
  exact (Chip.samePrivate_kept s.cfg hi ht s.chip).effect ⟨fun _ => ⟨rfl, rfl, rfl⟩, fun _ => ⟨rfl, rfl, rfl, rfl⟩⟩

end Sys2Proof.Machine

/-! SUPPORT. The statement about the high byte of `WDATA`, and the pseudo-operations of 30_encoding.md R95, which stage a
pair and forward it. -/

namespace Sys2Proof.Machine

/-! ## The high byte of WDATA -/

/-- Two values of `WDATA` with the same low byte, in the words of the statement. -/
theorem setWidth_eight_eq_iff (x y : Half) : x.setWidth 8 = y.setWidth 8 ↔ x.toNat % 256 = y.toNat % 256 := by
  rw [BitVec.toNat_eq, BitVec.toNat_setWidth, BitVec.toNat_setWidth]

/-- An update that uses no more of `WDATA` than its low byte, and lets the high byte reach nothing but `WDATA` (R27). -/
def Chip.LowByteOnly (f : Chip → Chip) : Prop :=
  ∀ (c : Chip) (w : Half), w.setWidth 8 = c.wdata.setWidth 8 →
    ∃ w' : Half, w'.setWidth 8 = (f c).wdata.setWidth 8 ∧ f (c.setWdata w) = (f c).setWdata w'

/-- An update that leaves `WDATA` alone and sees its low byte only. -/
theorem Chip.LowByteOnly.of_commutes {f : Chip → Chip} (hd : ∀ c, (f c).wdata = c.wdata)
    (hf : ∀ c w, w.setWidth 8 = c.wdata.setWidth 8 → f (c.setWdata w) = (f c).setWdata w) : Chip.LowByteOnly f :=
  fun c w hw => ⟨w, by rwa [hd], hf c w hw⟩

theorem Chip.LowByteOnly.comp {f g : Chip → Chip} (hg : Chip.LowByteOnly g) (hf : Chip.LowByteOnly f) :
    Chip.LowByteOnly fun c => g (f c) := by
  intro c w hw
  obtain ⟨w₁, hw₁, e₁⟩ := hf c w hw
  obtain ⟨w₂, hw₂, e₂⟩ := hg (f c) w₁ hw₁
  exact ⟨w₂, hw₂, (congrArg g e₁).trans e₂⟩

theorem Chip.LowByteOnly.onBit {f : Chip → Chip} (hf : Chip.LowByteOnly f) (b : Bool) :
    Chip.LowByteOnly (onBit b f) := by
  cases b
  · exact fun c w hw => ⟨w, hw, rfl⟩
  · exact hf

theorem Chip.lowByteOnly_id : Chip.LowByteOnly id := fun _ w hw => ⟨w, hw, rfl⟩

theorem Chip.lowByteOnly_broadcastEnvg (f : Envg → Envg) : Chip.LowByteOnly (Chip.broadcastEnvg f) :=
  .of_commutes (Chip.broadcastEnvg_wdata f) fun _ _ _ => rfl

theorem Chip.lowByteOnly_broadcastCh (f : Channel → Channel) : Chip.LowByteOnly (Chip.broadcastCh f) :=
  .of_commutes (Chip.broadcastCh_wdata f) fun _ _ _ => rfl

theorem Chip.lowByteOnly_setControl (v : Byte) : Chip.LowByteOnly (Chip.setControl v) := fun _ w hw => ⟨w, hw, rfl⟩

theorem Chip.lowByteOnly_clrEnvsel : Chip.LowByteOnly Chip.clrEnvsel := fun _ w hw => ⟨w, hw, rfl⟩

theorem Chip.lowByteOnly_clrWptr : Chip.LowByteOnly Chip.clrWptr := fun _ w hw => ⟨w, hw, rfl⟩

theorem Chip.lowByteOnly_clrWdata : Chip.LowByteOnly Chip.clrWdata := fun _ _ _ => ⟨0, rfl, rfl⟩

/-- Under the default `SUBREG_SRC` the number of a forward is `WPTR` (D4). -/
theorem stagedSub_of_wptr {cfg : Config} (h : cfg.subregSrc = .wptr) (c : Chip) : stagedSub cfg c = c.wptr := by
  simp only [stagedSub, h]

/-- The envelope forward uses the low byte of `WDATA` only (R106, D4). -/
theorem Chip.lowByteOnly_fwdEnvg {cfg : Config} (h : cfg.subregSrc = .wptr) : Chip.LowByteOnly (Chip.fwdEnvg cfg) := by
  refine .of_commutes (Chip.fwdEnvg_wdata cfg) fun c w hw => ?_
  have hb : stagedByte (c.setWdata w) = stagedByte c := hw
  rw [Chip.fwdEnvg, Chip.fwdEnvg, stagedSub_of_wptr h, stagedSub_of_wptr h, hb]
  rfl

/-- The channel forward uses the low byte of `WDATA` only (R107, D4). -/
theorem Chip.lowByteOnly_fwdChan {cfg : Config} (h : cfg.subregSrc = .wptr) : Chip.LowByteOnly (Chip.fwdChan cfg) := by
  refine .of_commutes (Chip.fwdChan_wdata cfg) fun c w hw => ?_
  have hb : stagedByte (c.setWdata w) = stagedByte c := hw
  rw [Chip.fwdChan, Chip.fwdChan, stagedSub_of_wptr h, stagedSub_of_wptr h, hb]
  rfl

/-- The RAM forward stores the low byte of `WDATA` (R108). -/
theorem Chip.lowByteOnly_fwdRam : Chip.LowByteOnly Chip.fwdRam := by
  refine .of_commutes Chip.fwdRam_wdata fun c w hw => ?_
  have hb : stagedByte (c.setWdata w) = stagedByte c := hw
  rw [Chip.fwdRam, Chip.fwdRam, hb]
  rfl

theorem Chip.lowByteOnly_writeControl {cfg : Config} (h : cfg.subregSrc = .wptr) (v : Byte) :
    Chip.LowByteOnly (Chip.writeControl cfg v) :=
  (Chip.lowByteOnly_fwdRam.onBit _).comp <| ((Chip.lowByteOnly_fwdChan h).onBit _).comp <|
    ((Chip.lowByteOnly_fwdEnvg h).onBit _).comp <| (Chip.lowByteOnly_clrWdata.onBit _).comp <|
    (Chip.lowByteOnly_clrWptr.onBit _).comp <| (Chip.lowByteOnly_clrEnvsel.onBit _).comp <|
    Chip.lowByteOnly_setControl v

/-- Every operation uses the low byte of `WDATA` only (R27). -/
theorem Instr.effect_lowByteOnly {cfg : Config} (h : cfg.subregSrc = .wptr) (i : Instr) :
    Chip.LowByteOnly (Instr.effect cfg i) := by
  cases i
  case pokeControl v => exact Chip.lowByteOnly_writeControl h v
  case pokeChsel | pokeEnvselLo | pokeEnvselHi | pokeWptrLo | pokeWptrHi => exact fun _ w hw => ⟨w, hw, rfl⟩
  case pokeWdataLo v =>
    exact fun c w hw => ⟨orLow w v, by simp [Instr.effect, orLow, BitVec.setWidth_or, hw], rfl⟩
  case pokeWdataHi v =>
    exact fun c w hw => ⟨orHigh w v, by simp [Instr.effect, orHigh, BitVec.setWidth_or, hw], rfl⟩
  case pokeUnmapped | peekControl | peekChctrl | peekEnvctrl | peekUnmapped | destroy | ctlRsvd3 | ctlRsvd6 | eReserved
    | cReserved => exact Chip.lowByteOnly_id
  case tick =>
    exact .of_commutes (Chip.tick_wdata cfg) fun c w _ => congrArg Prod.snd (Chip.tick_setWdata cfg c w)
  case init => exact fun _ _ _ => ⟨0, rfl, rfl⟩
  case ctlClrEnvsel => exact Chip.lowByteOnly_clrEnvsel
  case ctlClrWptr => exact Chip.lowByteOnly_clrWptr
  case ctlClrWdata => exact Chip.lowByteOnly_clrWdata
  case ctlFwdEnvg => exact Chip.lowByteOnly_fwdEnvg h
  case ctlFwdChan => exact Chip.lowByteOnly_fwdChan h
  case ctlFwdRam => exact Chip.lowByteOnly_fwdRam
  case eCtrl | eMult | eHold | eStride | eEntry => exact Chip.lowByteOnly_broadcastEnvg _
  all_goals exact Chip.lowByteOnly_broadcastCh _

theorem Instr.returned_tick (cfg : Config) (c : Chip) :
    Instr.returned cfg c .tick = [.frame (c.tick cfg).1.1 (c.tick cfg).1.2] := rfl

/-- What an operation returns does not depend on `WDATA`. -/
theorem Instr.returned_setWdata (cfg : Config) (c : Chip) (w : Half) (i : Instr) :
    Instr.returned cfg (c.setWdata w) i = Instr.returned cfg c i := by
  cases i
  case tick => rw [Instr.returned_tick, Instr.returned_tick, Chip.tick_setWdata]
  all_goals rfl

/-- Settles O15: the two runs return the same and leave chips that differ in the high byte of `WDATA` only. -/
theorem wdataHighByteHasNoEffect : Obligations.WdataHighByteHasNoEffect := by
  intro i s w h hcfg hw
  obtain ⟨w', hw', he⟩ := Instr.effect_lowByteOnly hcfg i s.chip w ((setWidth_eight_eq_iff _ _).mpr hw)
  refine ⟨_, w', exec_ready i h, (setWidth_eight_eq_iff _ _).mp hw', ?_⟩
  refine (exec_ready i (s := s.withChip (s.chip.setWdata w)) h).trans (congrArg Host.Outcome.next ?_)
  simp only [Instr.after, State.withChip_chip, State.withChip_cfg, State.withChip_pending, State.withChip_observed, he,
    Instr.returned_setWdata]
  rfl

/-! ## Pseudo-operations -/

/-- An operation that changes the chip only, first in a sequence. -/
theorem runAll_cons_act {s : State} (h : s.life = .ready) {i : Instr} {f : Chip → Chip}
    (hi : ∀ c, exec i (s.withChip c) = (s.withChip c).act f) (is : List Instr) (c : Chip) :
    runAll (i :: is) (s.withChip c) = runAll is (s.withChip (f c)) :=
  runAll_cons_next ((hi c).trans (State.act_ready h))

/-- The two halves of a word written to a cleared register give the word (R95, R111, R112). -/
theorem orHigh_orLow_zero (x : Half) : orHigh (orLow 0 (lo x)) (hi x) = x := by
  refine BitVec.eq_of_getLsbD_eq fun i hi' => ?_
  simp only [orHigh, orLow, lo, hi]
  interval_cases i <;> simp

theorem orLow_zero (v : Byte) : orLow 0 v = v.setWidth 16 := BitVec.zero_or

/-- The common part of the three sequences: on a chip with both registers clear, the pair is staged (R95). -/
theorem runAll_stagePair (x : Half) (v : Byte) (is : List Instr) {s : State} (h : s.life = .ready) {c : Chip}
    (hp : c.wptr = 0) (hd : c.wdata = 0) :
    runAll (.pokeWptrLo (lo x) :: .pokeWptrHi (hi x) :: .pokeWdataLo v :: is) (s.withChip c) =
      runAll is (s.withChip ((c.setWptr x).setWdata (v.setWidth 16))) := by
  rw [runAll_cons_act (f := fun c => c.setWptr (orLow c.wptr (lo x))) h fun _ => rfl,
    runAll_cons_act (f := fun c => c.setWptr (orHigh c.wptr (hi x))) h fun _ => rfl,
    runAll_cons_act (f := fun c => c.setWdata (orLow c.wdata v)) h fun _ => rfl]
  simp only [Chip.setWptr_wptr, Chip.setWptr_wdata, hp, hd, orHigh_orLow_zero]
  rw [orLow_zero]
  rfl

/-- A staged pair is delivered unchanged to the envelope multiplexer (R106, D4). -/
theorem Chip.fwdEnvg_of_staged {cfg : Config} (h : cfg.subregSrc = .wptr) {c : Chip} {v : Byte}
    (hd : c.wdata = v.setWidth 16) : Chip.fwdEnvg cfg c = Chip.pokeEnvg cfg c.wptr v c := by
  have hb : stagedByte c = v := by simp [stagedByte, hd]
  rw [Chip.fwdEnvg, stagedSub_of_wptr h, hb]

/-- A staged pair is delivered unchanged to the channel multiplexer (R107, D4). -/
theorem Chip.fwdChan_of_staged {cfg : Config} (h : cfg.subregSrc = .wptr) {c : Chip} {v : Byte}
    (hd : c.wdata = v.setWidth 16) : Chip.fwdChan cfg c = Chip.pokeChannel cfg c.wptr v c := by
  have hb : stagedByte c = v := by simp [stagedByte, hd]
  rw [Chip.fwdChan, stagedSub_of_wptr h, hb]

/-- POKE.CONTROL on a chip of `s`, as a law of `runAll_cons_act`. -/
theorem exec_pokeControl (s : State) (v : Byte) (c : Chip) :
    exec (.pokeControl v) (s.withChip c) = (s.withChip c).act (Chip.writeControl s.cfg v) := rfl

/-- POKE.CONTROL 0x10 forwards a staged pair to the envelope multiplexer and stores the byte. -/
theorem runAll_fwdEnvg {s : State} (h : s.life = .ready) (hcfg : s.cfg.subregSrc = .wptr) {c : Chip} {v : Byte}
    (hd : c.wdata = v.setWidth 16) :
    runAll [.pokeControl 0x10] (s.withChip c) =
      exec (decodeSube s.cfg c.wptr v) (s.withChip (c.setControl 0x10)) := by
  have hw : Chip.writeControl s.cfg 0x10 c = Chip.pokeEnvg s.cfg c.wptr v (c.setControl 0x10) :=
    Chip.fwdEnvg_of_staged (c := c.setControl 0x10) hcfg hd
  rw [runAll_cons_act h (exec_pokeControl s 0x10), runAll_nil, exec_decodeSube, hw]
  exact (State.act_ready (s := s.withChip (c.setControl 0x10)) h).symm

/-- POKE.CONTROL 0x20 forwards a staged pair to the channel multiplexer and stores the byte. -/
theorem runAll_fwdChan {s : State} (h : s.life = .ready) (hcfg : s.cfg.subregSrc = .wptr) {c : Chip} {v : Byte}
    (hd : c.wdata = v.setWidth 16) :
    runAll [.pokeControl 0x20] (s.withChip c) =
      exec (decodeSubc s.cfg c.wptr v) (s.withChip (c.setControl 0x20)) := by
  have hw : Chip.writeControl s.cfg 0x20 c = Chip.pokeChannel s.cfg c.wptr v (c.setControl 0x20) :=
    Chip.fwdChan_of_staged (c := c.setControl 0x20) hcfg hd
  rw [runAll_cons_act h (exec_pokeControl s 0x20), runAll_nil, exec_decodeSubc, hw]
  exact (State.act_ready (s := s.withChip (c.setControl 0x20)) h).symm

/-- POKE.CONTROL 0x80 is the RAM forward on the stored byte. -/
theorem runAll_fwdRam {s : State} (h : s.life = .ready) (c : Chip) :
    runAll [.pokeControl 0x80] (s.withChip c) = exec .ctlFwdRam (s.withChip (c.setControl 0x80)) := by
  rw [runAll_cons_act h (exec_pokeControl s 0x80), runAll_nil]
  exact (State.act_ready (f := Chip.fwdRam) (s := s.withChip (c.setControl 0x80)) h).symm

/-- Settles O50: each sequence clears, stages its pair and performs one forward on it. -/
theorem pseudoOperationsForwardTheirPair : Obligations.PseudoOperationsForwardTheirPair := by
  intro s m sub cm v h hcfg
  rw [← s.withChip_self]
  refine ⟨?_, ?_, ?_⟩
  · rw [wenvg, runAll_cons_act h (exec_pokeControl s 0x07),
      runAll_cons_act (f := fun c => c.setEnvsel (orLow c.envsel (lo m))) h fun _ => rfl,
      runAll_cons_act (f := fun c => c.setEnvsel (orHigh c.envsel (hi m))) h fun _ => rfl,
      runAll_stagePair sub v _ h rfl rfl, runAll_fwdEnvg h hcfg (Chip.setWdata_wdata _ _)]
    have hm : orHigh (orLow (Chip.writeControl s.cfg 0x07 s.chip).envsel (lo m)) (hi m) = m := orHigh_orLow_zero m
    simp only [Chip.setEnvsel_envsel, hm]
    rfl
  · rw [wchan, runAll_cons_act (f := Chip.setChsel cm) h fun _ => rfl, runAll_cons_act h (exec_pokeControl s 0x06),
      runAll_stagePair sub v _ h rfl rfl, runAll_fwdChan h hcfg (Chip.setWdata_wdata _ _)]
    rfl
  · rw [wram, runAll_cons_act h (exec_pokeControl s 0x06), runAll_stagePair sub v _ h rfl rfl, runAll_fwdRam h]
    rfl

end Sys2Proof.Machine

/-! SUPPORT. The statements of 41_envg_subregisters.md and 42_channel_subregisters.md: what each sub-register's write leaves
in the selected entities and in the others. -/

namespace Sys2Proof.Machine

/-! ## Broadcasts on a ready chip -/

/-- An operation that is the envelope multiplexer's write changes the generator file only, entity by entity (R130). -/
theorem exec_broadcastEnvg {i : Instr} {s : State} {f f' : Envg → Envg} (h : s.life = .ready)
    (hi : exec i s = s.act (Chip.broadcastEnvg f')) (hf : ∀ e, f' e = f e) :
    ∃ es : Vector Envg 16, exec i s = .next { s with chip := { s.chip with envgs := es } } ∧
      ∀ g : Fin 16, es[g] = if s.chip.envsel.getLsbD g.val then f s.chip.envgs[g] else s.chip.envgs[g] := by
  refine ⟨mapSelected s.chip.envsel f' s.chip.envgs, hi.trans (State.act_ready h), fun g => ?_⟩
  simp [mapSelected, hf]

/-- An operation that is the channel multiplexer's write changes the channel file only, entity by entity (R145). -/
theorem exec_broadcastCh {i : Instr} {s : State} {f f' : Channel → Channel} (h : s.life = .ready)
    (hi : exec i s = s.act (Chip.broadcastCh f')) (hf : ∀ x, f' x = f x) :
    ∃ hs : Vector Channel 8, exec i s = .next { s with chip := { s.chip with channels := hs } } ∧
      ∀ c : Fin 8, hs[c] = if s.chip.chsel.getLsbD c.val then f s.chip.channels[c] else s.chip.channels[c] := by
  refine ⟨mapSelected s.chip.chsel f' s.chip.channels, hi.trans (State.act_ready h), fun c => ?_⟩
  simp [mapSelected, hf]

/-- A byte put into a signed register by its value is the same eight bits (R87). -/
theorem ofInt_signed (v : Byte) :
    BitVec.ofInt 8 (if v.toNat < 128 then (v.toNat : Int) else (v.toNat : Int) - 256) = v := by
  have hv : (if v.toNat < 128 then (v.toNat : Int) else (v.toNat : Int) - 256) = v.toInt := by
    rw [BitVec.toInt_eq_toNat_cond]
    split_ifs <;> omega
  rw [hv, BitVec.ofInt_toInt]

/-! ## The envelope multiplexer -/

/-- Settles O20: four broadcasts, each of one field's write. -/
theorem envelopeScalarWrites : Obligations.EnvelopeScalarWrites := by
  intro s v h
  simp only [ofInt_signed]
  refine ⟨?_, ?_, ?_, ?_⟩
  · exact exec_broadcastEnvg h (f' := Envg.writeCtrl v) rfl fun _ => rfl
  · exact exec_broadcastEnvg h (f' := Envg.writeMult v) rfl fun _ => rfl
  · exact exec_broadcastEnvg h (f' := Envg.writeHold v) rfl fun _ => rfl
  · exact exec_broadcastEnvg h (f' := Envg.writeStride v) rfl fun _ => rfl

/-- Settles O21: a broadcast of one table write, read back by the law of the table's memory. -/
theorem envelopeEntryWrite : Obligations.EnvelopeEntryWrite := by
  intro s i v h hrest
  obtain ⟨es, hex, hes⟩ := exec_broadcastEnvg (i := .eEntry i v) h (f' := Envg.writeEntry i v) rfl fun _ => rfl
  refine ⟨es, hex, fun g => ⟨fun hsel => ?_, fun hsel => ?_⟩⟩
  · have hwf := (hrest.2 g).1
    rw [hes g, if_pos hsel]
    refine ⟨⟨_, rfl⟩, ?_, fun j hj => ?_⟩
    · rw [Envg.writeEntry_ent, Memory.read_write hwf, if_pos rfl]
    · rw [Envg.writeEntry_ent, Memory.read_write hwf, if_neg hj.symm]
  · rw [hes g, hsel]
    rfl

/-! ## Reserved numbers -/

/-- Where every row names something, a number is without a row exactly when it names nothing. -/
theorem rowOf_eq_iff {α : Type} {z : α} {rows : List (Half × α)} (hz : ∀ r ∈ rows, r.2 ≠ z) (sub : Half) :
    rowOf z rows sub = z ↔ ∀ r ∈ rows, r.1 ≠ sub := by
  induction rows with
  | nil => simp [rowOf]
  | cons r rows ih =>
    rw [List.forall_mem_cons] at hz ⊢
    rw [rowOf, ← ih hz.2]
    by_cases hr : r.1 = sub
    · simp [hr, hz.1]
    · simp [hr]

/-- An envelope number names nothing when it is no entry's and has no row (R132). -/
theorem EnvgSubregMap.field_eq_reserved_iff (m : EnvgSubregMap) (sub : Half) :
    m.field sub = .reserved ↔ ¬ (128 ≤ sub.toNat ∧ sub.toNat ≤ 255) ∧ rowOf .reserved m.rows sub = .reserved := by
  unfold EnvgSubregMap.field
  split_ifs with h <;> simp [h]

/-- A channel number names nothing when it is none the source fixes and has no row (R147). -/
theorem ChSubregMap.field_eq_reserved_iff (m : ChSubregMap) (sub : Half) :
    m.field sub = .reserved ↔ sub ≠ 0 ∧ sub ≠ 2 ∧ ¬ (7 ≤ sub.toNat ∧ sub.toNat - 7 < 10) ∧
      rowOf .reserved m.rows sub = .reserved := by
  unfold ChSubregMap.field
  split_ifs with h0 h2 h7
  · simp [h0]
  · simp [h2]
  · simp [h7]
  · exact ⟨fun h => ⟨h0, h2, h7, h⟩, fun h => h.2.2.2⟩

/-- Settles O22: the numbers without a row in the default maps, and the two default rows without an effect. -/
theorem reservedSubregistersDoNothing : Obligations.ReservedSubregistersDoNothing := by
  refine ⟨fun sub => ⟨?_, ?_⟩, fun s sub v h => ⟨exec_of_returned_nil h rfl rfl, exec_of_returned_nil h rfl rfl⟩⟩
  · rw [EnvgSubregMap.field_eq_reserved_iff, rowOf_eq_iff (by decide)]
    simp only [EnvgSubregMap.default, List.forall_mem_cons, List.not_mem_nil, false_imp_iff, implies_true, and_true,
      ne_eq, BitVec.toNat_eq, BitVec.reduceToNat]
    omega
  · rw [ChSubregMap.field_eq_reserved_iff, rowOf_eq_iff (by decide)]
    simp only [ChSubregMap.default, List.forall_mem_cons, List.not_mem_nil, false_imp_iff, implies_true, and_true,
      ne_eq, BitVec.toNat_eq, BitVec.reduceToNat]
    omega

/-! ## The channel multiplexer -/

/-- Settles O23: a broadcast of the control write, whose clears look at the byte written. -/
theorem channelControlWrite : Obligations.ChannelControlWrite :=
  fun _ v h => exec_broadcastCh h (f' := Channel.writeCtrl v) rfl fun _ => rfl

/-- Settles O24: two broadcasts, each of one volume's write. -/
theorem channelVolumeWrites : Obligations.ChannelVolumeWrites := by
  intro s v h signed
  have hv : signed = v := ofInt_signed v
  rw [hv]
  exact ⟨exec_broadcastCh h (f' := Channel.writeVoll v) rfl fun _ => rfl,
    exec_broadcastCh h (f' := Channel.writeVolr v) rfl fun _ => rfl⟩

/-- Settles O25: six broadcasts, each of one half's write. -/
theorem channelHalvesAreOred : Obligations.ChannelHalvesAreOred := by
  intro s v h
  refine ⟨?_, ?_, ?_, ?_, ?_, ?_⟩
  · exact exec_broadcastCh h (f' := Channel.writeAccmaxLo v) rfl fun _ => rfl
  · exact exec_broadcastCh h (f' := Channel.writeAccmaxHi v) rfl fun _ => rfl
  · exact exec_broadcastCh h (f' := Channel.writeLstartLo v) rfl fun _ => rfl
  · exact exec_broadcastCh h (f' := Channel.writeLstartHi v) rfl fun _ => rfl
  · exact exec_broadcastCh h (f' := Channel.writeLendLo v) rfl fun _ => rfl
  · exact exec_broadcastCh h (f' := Channel.writeLendHi v) rfl fun _ => rfl

/-- R88: the selector of a byte is the byte mod 16. -/
theorem selectorOf_eq (v : Byte) : selectorOf v = BitVec.ofNat 4 (v.toNat % 16) := by
  refine BitVec.eq_of_toNat_eq ?_
  rw [selectorOf, BitVec.toNat_setWidth, BitVec.toNat_ofNat]
  omega

/-- A file with one entry replaced, entry by entry. -/
theorem set_eq_ofFn {α : Type} {n : Nat} (v : Vector α n) (k : Fin n) (x : α) :
    v.set k x = Vector.ofFn fun j => if j = k then x else v[j] := by
  ext j hj
  rw [Vector.getElem_ofFn, Vector.getElem_set]
  simp [Fin.ext_iff, eq_comm]

/-- Settles O26: eleven broadcasts, each of one selector's write. -/
theorem channelSelectorWrites : Obligations.ChannelSelectorWrites := by
  intro s v h
  simp only [← selectorOf_eq]
  refine ⟨?_, rfl, fun k => ?_⟩
  · exact exec_broadcastCh h (f' := Channel.writeAmpsel v) rfl fun _ => rfl
  · exact exec_broadcastCh h (exec_coefselInstr k v s) fun x => by rw [Channel.writeCoefsel, set_eq_ofFn]

end Sys2Proof.Machine

/-! SUPPORT. The statements of 44_envelope_generator.md about one update and the two outputs, those of 45_biquad.md about one
stage call, and that of 46_channel_render.md about the sample fetched. -/

namespace Sys2Proof.Machine

/-! ## One update of a generator -/

theorem Envg.withinStride_iff (cmp : StrideCompare) (e : Envg) :
    e.withinStride cmp = true ↔ cmp = .configured ∧ e.cs.toNat < e.stride.toNat := by
  cases cmp <;> simp [Envg.withinStride]

theorem Envg.sustains_iff (e : Envg) :
    e.sustains = true ↔ e.ectrl.getLsbD 1 = true ∧ e.ce.toNat = e.hold.toNat := by
  simp [Envg.sustains, envgKeyOn]

theorem add_one_eq_ofNat {n : Nat} (x : BitVec n) : x + 1 = BitVec.ofNat n (x.toNat + 1) := by
  rw [BitVec.ofNat_add, BitVec.ofNat_toNat, BitVec.setWidth_eq]
  rfl

/-- A key-reset replaces the step (R181, R182). -/
theorem Envg.update_of_keyReset (cmp : StrideCompare) {e : Envg} (h : e.ectrl.getLsbD 0 = true) :
    e.update cmp = { e with ectrl := e.ectrl &&& 0xFE, ce := 0, cs := 0, sq := false } := by
  rw [Envg.update, if_pos (show envgKeyReset e.ectrl = true from h)]
  rfl

/-- Without a key-reset the update is the step (R181). -/
theorem Envg.update_of_no_keyReset (cmp : StrideCompare) {e : Envg} (h : e.ectrl.getLsbD 0 = false) :
    e.update cmp = { e.step cmp with sq := false } := by
  rw [Envg.update, if_neg (by rw [show envgKeyReset e.ectrl = false from h]; decide)]

/-- While the stride count runs, it alone moves (R183). -/
theorem Envg.step_of_within {cmp : StrideCompare} {e : Envg} (h : cmp = .configured ∧ e.cs.toNat < e.stride.toNat) :
    e.step cmp = { e with cs := BitVec.ofNat 8 (e.cs.toNat + 1) } := by
  rw [Envg.step, if_pos ((Envg.withinStride_iff cmp e).mpr h), add_one_eq_ofNat]

/-- On the hold point with key-on nothing moves (R183). -/
theorem Envg.step_of_held {cmp : StrideCompare} {e : Envg}
    (hw : ¬ (cmp = .configured ∧ e.cs.toNat < e.stride.toNat))
    (hh : e.ectrl.getLsbD 1 = true ∧ e.ce.toNat = e.hold.toNat) : e.step cmp = e := by
  rw [Envg.step, if_neg (mt (Envg.withinStride_iff cmp e).mp hw), if_pos ((Envg.sustains_iff e).mpr hh)]

/-- Otherwise the cursor advances, to 127 at most (R184). -/
theorem Envg.step_of_advance {cmp : StrideCompare} {e : Envg}
    (hw : ¬ (cmp = .configured ∧ e.cs.toNat < e.stride.toNat))
    (hh : ¬ (e.ectrl.getLsbD 1 = true ∧ e.ce.toNat = e.hold.toNat)) :
    e.step cmp = if e.ce.toNat < 127 then { e with ce := BitVec.ofNat 7 (e.ce.toNat + 1), cs := 0 } else e := by
  rw [Envg.step, if_neg (mt (Envg.withinStride_iff cmp e).mp hw), if_neg (mt (Envg.sustains_iff e).mp hh),
    Envg.advance, add_one_eq_ofNat]

/-- Settles O30: the key-reset and the branches of the step, one lemma each. -/
theorem envelopeUpdateCases : Obligations.EnvelopeUpdateCases := by
  intro cmp e within held
  refine ⟨Envg.update_of_keyReset cmp, fun h0 => ?_⟩
  rw [Envg.update_of_no_keyReset cmp h0]
  refine ⟨fun hw => ?_, fun hw hh => ?_, fun hw hh hce => ?_, fun hw hh hce => ?_⟩
  · rw [Envg.step_of_within hw]
  · rw [Envg.step_of_held hw hh]
  · rw [Envg.step_of_advance hw hh, if_pos hce]
  · rw [Envg.step_of_advance hw hh, if_neg (by omega)]

/-! ## The outputs of a generator -/

/-- A signed byte times an unsigned one (D9, D15). -/
theorem signed_mul_byte_bounds (m b : Byte) :
    -32640 ≤ m.toInt * (b.toNat : Int) ∧ m.toInt * (b.toNat : Int) ≤ 32385 := by
  have h1 : -128 ≤ m.toInt := m.le_toInt
  have h2 : m.toInt < 128 := m.toInt_lt
  have h3 : (b.toNat : Int) < 256 := by exact_mod_cast b.isLt
  constructor <;> nlinarith

theorem Envg.lin_bounds (e : Envg) : -32640 ≤ e.lin ∧ e.lin ≤ 32385 := signed_mul_byte_bounds _ _

theorem Envg.exp_bounds (cfg : Config) (e : Envg) : -32640 ≤ e.exp cfg ∧ e.exp cfg ≤ 32385 :=
  signed_mul_byte_bounds _ _

/-- A coefficient register holds the linear output exactly (R186). -/
theorem Envg.toInt_ofInt_lin (e : Envg) : (BitVec.ofInt 16 e.lin).toInt = e.lin := by
  obtain ⟨h1, h2⟩ := e.lin_bounds
  rw [BitVec.toInt_ofInt]
  exact Int.bmod_eq_of_le (by norm_num; omega) (by norm_num; omega)

/-- Settles O34: both outputs are products of a signed and an unsigned byte. -/
theorem envelopeOutputsFitSixteenBits : Obligations.EnvelopeOutputsFitSixteenBits :=
  fun cfg e => ⟨e.lin_bounds.1, e.lin_bounds.2, e.toInt_ofInt_lin, (e.exp_bounds cfg).1, (e.exp_bounds cfg).2⟩

/-! ## The biquad stage -/

@[simp] theorem Stage.delay_setDelay (side : Side) (d : DelayLine) (st : Stage) :
    (st.setDelay side d).delay side = d := by
  cases side <;> rfl

@[simp] theorem Stage.setDelay_coef (side : Side) (d : DelayLine) (st : Stage) :
    (st.setDelay side d).coef = st.coef := by
  cases side <;> rfl

theorem clamp_of_lt {v lo hi : Int} (h : v < lo) : clamp v lo hi = lo := if_pos h

theorem clamp_of_gt {v lo hi : Int} (hle : lo ≤ hi) (h : hi < v) : clamp v lo hi = hi := by
  rw [clamp, if_neg (by omega), if_pos h]

/-- Wrapping changes a number by a multiple of `2 ^ width` (R198, D19). -/
theorem narrow_wrap_sub_emod (width : Nat) (v : Int) : (narrow .wrap width v - v) % 2 ^ width = 0 := by
  have h := Int.bmod_emod (x := v) (m := 2 ^ width)
  push_cast at h
  exact Int.emod_eq_emod_iff_emod_sub_eq_zero.mp h

/-- Settles O35: the output is a clamp, the new delay is narrowed, and the stage changes in its side's delays only. -/
theorem biquadClampsAndShiftsItsDelayLine : Obligations.BiquadClampsAndShiftsItsDelayLine := by
  intro cfg side x st hw r d k sh a a' top b
  have ha : a' = narrow cfg.accOverflow cfg.accWidth a := by
    simp only [a', r, Stage.filter, Stage.delay_setDelay]
    rfl
  have hd : (r.2.delay side).d1 = d.d0 := by
    simp only [r, Stage.filter, Stage.delay_setDelay]
    rfl
  have hr : r.1 = clamp b (-32767) 32767 := by
    simp only [b, ha]
    rfl
  rw [hr, hd, ha]
  refine ⟨clamp_bounds _ (by decide), clamp_inside, clamp_of_lt, clamp_of_gt (by decide), rfl, narrow_fits _ hw a,
    fun hp => ?_, fun hp => ?_, Stage.setDelay_coef _ _ _, ?_, ?_⟩
  · rw [hp]
    exact narrow_wrap_sub_emod _ a
  · rw [hp]
    rfl
  · rintro rfl
    rfl
  · rintro rfl
    rfl

/-- A call whose exact feedback sum fits 32 bits stores that sum, at every width and under both policies (U7). -/
theorem biquadCall_of_fits {cfg : Config} {k : Coefs} {d : DelayLine} {x a : Int} (hw : 32 ≤ cfg.accWidth)
    (ha : x - floorShift (k.a1.toInt * d.d1) cfg.biquadShift - floorShift (k.a2.toInt * d.d0) cfg.biquadShift = a)
    (h1 : -2147483648 ≤ a) (h2 : a ≤ 2147483647) :
    biquadCall cfg k d x = (clamp (biquadB cfg k d a) (-32767) 32767, ⟨a, d.d0⟩) := by
  have hA : biquadA cfg k d x = a := by rw [biquadA, ha, narrow_exact _ hw h1 h2]
  simp only [biquadCall, hA]

/-- Settles O36: both calls store the exact sum, and nothing else depends on the width or the policy. -/
theorem biquadWithoutOverflowIsExact : Obligations.BiquadWithoutOverflowIsExact := by
  intro cfg k d x hw sh a h2 h1
  have h := biquadCall_of_fits (cfg := cfg) (k := k) (d := d) (x := x) (a := a) hw rfl h1 h2
  refine ⟨by rw [h], fun width p hwidth => ?_⟩
  rw [h]
  exact biquadCall_of_fits (cfg := { cfg with accWidth := width, accOverflow := p }) hwidth rfl h1 h2

theorem floorShift_zero (n : Nat) : floorShift 0 n = 0 := Int.zero_ediv _

/-- Without feedback the intermediate is the input. -/
theorem biquadCall_of_no_feedback {cfg : Config} {d : DelayLine} {x : Int} (b0 b1 b2 : BitVec 16)
    (hw : 32 ≤ cfg.accWidth) (h1 : -2147483648 ≤ x) (h2 : x ≤ 2147483647) :
    biquadCall cfg ⟨0, 0, b0, b1, b2⟩ d x = (clamp (biquadB cfg ⟨0, 0, b0, b1, b2⟩ d x) (-32767) 32767, ⟨x, d.d0⟩) :=
  biquadCall_of_fits hw (by simp [floorShift_zero]) h1 h2

/-- Settles O37: without feedback the input is recorded; the feed-forward sum is 0, or the input itself. -/
theorem biquadSilenceAndPassThrough : Obligations.BiquadSilenceAndPassThrough := by
  intro cfg d x hw h1 h2
  refine ⟨?_, fun hs => ?_⟩
  · have hB : biquadB cfg ⟨0, 0, 0, 0, 0⟩ d x = 0 := by simp [biquadB, floorShift_zero]
    rw [biquadCall_of_no_feedback 0 0 0 hw h1 h2, hB]
    rfl
  · have hx : floorShift (256 * x) 8 = x := Int.mul_ediv_cancel_left x (by decide)
    have hB : biquadB cfg ⟨0, 0, 256, 0, 0⟩ d x = x := by simp [biquadB, hs, hx, floorShift_zero]
    rw [biquadCall_of_no_feedback 256 0 0 hw h1 h2, hB]
    rfl

/-! ## The sample fetched -/

/-- Settles O42: the check leaves the cursor at the reload address, or where it is and then not past `LEND`. -/
theorem fetchIsNeverPastLendUnlessReloaded : Obligations.FetchIsNeverPastLendUnlessReloaded := by
  intro ram h
  have hr := h.cursorCheck_rptr
  refine ⟨?_, fun _ hpast => ?_, fun hs he => ?_⟩
  · rw [hr]
    split_ifs with hc
    · exact .inr rfl
    · exact .inl (by omega)
  · rw [hr, if_pos (.inr hpast)]
  · have h0 : h.cursorCheck.rptr.toNat = 0 := by
      rw [hr, hs, he]
      split_ifs with hc
      · rfl
      · simpa using (not_or.mp hc).2
    rw [Channel.fetch, h0]

end Sys2Proof.Machine

/-! SUPPORT. The statements of 44_envelope_generator.md, 46_channel_render.md and 47_render_sequencer.md about one TICK and
about a number of them. -/

namespace Sys2Proof.Machine

/-! ## Ticks in sequence -/

/-- The state a TICK leaves on a ready chip (R230, R237). -/
def State.ticked (s : State) : State :=
  (s.withChip (s.chip.tick s.cfg).2).observe (.frame (s.chip.tick s.cfg).1.1 (s.chip.tick s.cfg).1.2)

theorem exec_tick {s : State} (h : s.life = .ready) : exec .tick s = .next s.ticked := execTick_ready h

@[simp] theorem State.ticked_chip (s : State) : s.ticked.chip = (s.chip.tick s.cfg).2 := rfl
@[simp] theorem State.ticked_life (s : State) : s.ticked.life = s.life := rfl
@[simp] theorem State.ticked_cfg (s : State) : s.ticked.cfg = s.cfg := rfl
@[simp] theorem State.ticked_pending (s : State) : s.ticked.pending = s.pending := rfl
@[simp] theorem State.ticked_observed (s : State) :
    s.ticked.observed = s.observed ++ [.frame (s.chip.tick s.cfg).1.1 (s.chip.tick s.cfg).1.2] := rfl

/-- `render(n)` on a ready chip is `n` ticks (R240). -/
theorem runAll_render (n : Nat) {s : State} (h : s.life = .ready) :
    runAll (render n) s = .next (State.ticked^[n] s) := by
  induction n generalizing s with
  | zero => rfl
  | succ n ih =>
    rw [render, List.replicate_succ, runAll_cons_next (exec_tick h), Function.iterate_succ_apply]
    exact ih h

/-- What one tick keeps, any number of ticks keep. -/
theorem State.ticked_iterate_keeps {P : State → Prop} (hP : ∀ s, P s → P s.ticked) (n : Nat) {s : State} (hs : P s) :
    P (State.ticked^[n] s) :=
  Function.Iterate.rec P hs hP n

@[simp] theorem State.ticked_iterate_cfg (n : Nat) (s : State) : (State.ticked^[n] s).cfg = s.cfg :=
  State.ticked_iterate_keeps (P := fun t => t.cfg = s.cfg) (fun _ ht => ht) n rfl

/-- The chip after `n` ticks depends on the chip and the parameters only. -/
theorem State.ticked_iterate_chip (n : Nat) (s : State) :
    (State.ticked^[n] s).chip = (fun c => (Chip.tick s.cfg c).2)^[n] s.chip := by
  induction n with
  | zero => rfl
  | succ n ih =>
    rw [Function.iterate_succ_apply', Function.iterate_succ_apply', State.ticked_chip, State.ticked_iterate_cfg, ih]

/-- Settles O49: `n` ticks append `n` frames, keep the rest of the state, and the last of them clears `CONTROL`. -/
theorem renderReturnsExactlyItsFrames : Obligations.RenderReturnsExactlyItsFrames := by
  intro n s h
  induction n generalizing s with
  | zero => exact ⟨s, [], rfl, rfl, (List.append_nil _).symm, h, rfl, rfl, rfl, fun _ => rfl⟩
  | succ n ih =>
    obtain ⟨t, frames, hrun, hlen, hobs, hlife, hcfg, hpend, hcontrol, -⟩ := ih s.ticked h
    refine ⟨t, (s.chip.tick s.cfg).1 :: frames, ?_, by rw [List.length_cons, hlen], ?_, hlife, hcfg, hpend, ?_,
      fun hn => absurd hn (Nat.succ_ne_zero n)⟩
    · rw [render, List.replicate_succ, runAll_cons_next (exec_tick h)]
      exact hrun
    · rw [hobs, State.ticked_observed, List.append_assoc]
      rfl
    · rw [hcontrol, State.ticked_chip, Chip.tick_control, ite_self, if_neg (Nat.succ_ne_zero n)]

/-! ## Generators over a tick -/

/-- A generator some channel references is updated once (R232, R233). -/
theorem Chip.tick_envgs_of_references (cfg : Config) {c : Chip} {g : Fin 16} (h : c.References g) :
    (c.tick cfg).2.envgs[g] = c.envgs[g].update cfg.strideCompare := by
  rw [Chip.tick_envgs, Fin.getElem_fin, Chip.beginTick_envgs,
    if_pos (by rw [(c.referenced_iff g).mpr h, Bool.true_or])]
  rfl

/-- Clearing a mark that is not set. -/
theorem Envg.clearMark_of_not_marked {e : Envg} (h : e.sq = false) : { e with sq := false } = e := by
  rw [← h]

/-- A generator at rest that no channel references is not touched (R232, R233). -/
theorem Chip.tick_envgs_of_not_references (cfg : Config) {c : Chip} {g : Fin 16} (h : ¬ c.References g)
    (hsq : c.envgs[g].sq = false) : (c.tick cfg).2.envgs[g] = c.envgs[g] := by
  have hr : c.referenced g = false := by rwa [← Bool.not_eq_true, c.referenced_iff]
  rw [Fin.getElem_fin] at hsq
  rw [Chip.tick_envgs, Fin.getElem_fin, Chip.beginTick_envgs, if_neg (by rw [hr, hsq]; decide),
    Envg.clearMark_of_not_marked hsq]
  rfl

/-- Over a tick a generator is updated, or at most loses its mark (R232, R233). -/
theorem Chip.tick_envgs_cases (cfg : Config) (c : Chip) (g : Fin 16) :
    (c.tick cfg).2.envgs[g] = c.envgs[g].update cfg.strideCompare ∨
      (c.tick cfg).2.envgs[g] = { c.envgs[g] with sq := false } := by
  rw [Chip.tick_envgs, Fin.getElem_fin, Chip.beginTick_envgs]
  split_ifs
  · exact .inl rfl
  · exact .inr rfl

/-- What every update and every loss of the mark keep of a generator, a tick keeps. -/
theorem Chip.tick_envgs_keeps {P : Envg → Prop} {cfg : Config} {c : Chip} {g : Fin 16}
    (hu : P (c.envgs[g].update cfg.strideCompare)) (hm : P { c.envgs[g] with sq := false }) :
    P (c.tick cfg).2.envgs[g] := by
  obtain h | h := c.tick_envgs_cases cfg g <;> rwa [h]

/-- Settles O31: a referenced generator is updated, and one at rest that is not referenced has no mark to lose. -/
theorem tickStepsReferencedGeneratorsOnce : Obligations.TickStepsReferencedGeneratorsOnce :=
  fun s h hrest => ⟨_, exec_tick h, fun g => ⟨Chip.tick_envgs_of_references s.cfg,
    fun hr => Chip.tick_envgs_of_not_references s.cfg hr (hrest.2 g).2⟩⟩

/-! ## Sustain -/

/-- Key-on with `STRIDE`, `HOLD` and `CE` at 0 (R190). -/
def Envg.Sustained (e : Envg) : Prop :=
  e.ectrl.getLsbD 1 = true ∧ e.stride = 0 ∧ e.hold = 0 ∧ e.ce = 0

/-- R182 leaves bit 1 of `ECTRL` alone. -/
theorem dropKeyReset_bit_one (v : Byte) : (dropKeyReset v).getLsbD 1 = v.getLsbD 1 := by
  simp [dropKeyReset]

/-- R182 clears bit 0 of `ECTRL`. -/
theorem dropKeyReset_bit_zero (v : Byte) : (dropKeyReset v).getLsbD 0 = false := by
  simp [dropKeyReset]

/-- An update keeps a sustained generator sustained (R190). -/
theorem Envg.update_sustained (cmp : StrideCompare) {e : Envg} (h : e.Sustained) : (e.update cmp).Sustained := by
  obtain ⟨hk, hs, hh, hc⟩ := h
  obtain ⟨-, hhold, hstride, -⟩ := Envg.update_frame cmp e
  refine ⟨by rw [Envg.update_ectrl, dropKeyReset_bit_one, hk], hstride.trans hs, hhold.trans hh, ?_⟩
  cases h0 : e.ectrl.getLsbD 0 with
  | true => rw [Envg.update_of_keyReset cmp h0]
  | false =>
    have hw : ¬ (cmp = .configured ∧ e.cs.toNat < e.stride.toNat) := by simp [hs]
    have hheld : e.ectrl.getLsbD 1 = true ∧ e.ce.toNat = e.hold.toNat := ⟨hk, by rw [hc, hh]; rfl⟩
    rw [Envg.update_of_no_keyReset cmp h0, Envg.step_of_held hw hheld]
    exact hc

/-- Settles O32: a tick keeps a generator sustained, whether it updates it or not. -/
theorem sustainHoldsForEver : Obligations.SustainHoldsForEver := by
  intro s g n h _ hk hs hh hc
  have key : (State.ticked^[n] s).chip.envgs[g].Sustained :=
    State.ticked_iterate_keeps (P := fun t => t.chip.envgs[g].Sustained)
      (fun t ht => Chip.tick_envgs_keeps (c := t.chip) (Envg.update_sustained _ ht) ht) n ⟨hk, hs, hh, hc⟩
  exact ⟨_, runAll_render n h, key.2.2.2⟩

/-! ## A free-running envelope -/

/-- A referenced generator is updated by each of a number of ticks. -/
theorem Chip.tick_iterate_envgs (cfg : Config) (n : Nat) {c : Chip} {g : Fin 16} (h : c.References g) :
    ((fun c => (Chip.tick cfg c).2)^[n] c).envgs[g] = (Envg.update cfg.strideCompare)^[n] c.envgs[g] := by
  induction n generalizing c with
  | zero => rfl
  | succ n ih =>
    rw [Function.iterate_succ_apply, Function.iterate_succ_apply, ih ((c.tick_references cfg g).mpr h),
      Chip.tick_envgs_of_references cfg h]

/-- The stride the comparison counts to: 0 under `source_bug` (D11). -/
def Envg.countTo (cmp : StrideCompare) (e : Envg) : Nat := if cmp = .configured then e.stride.toNat else 0

/-- Where a free-running cursor stops: on the hold point with key-on, else at 127 (R184, R190). -/
def Envg.stopAt (e : Envg) : Nat := if e.ectrl.getLsbD 1 = true then min 127 e.hold.toNat else 127

/-- A generator `k` ticks after its key-reset, whose stride count is `S` and whose cursor stops at `L` (R191). -/
structure Envg.FreeRunning (cmp : StrideCompare) (S L k : Nat) (e : Envg) : Prop where
  no_keyReset : e.ectrl.getLsbD 0 = false
  countTo : e.countTo cmp = S
  stopAt : e.stopAt = L
  ce : e.ce.toNat = min L (k / (S + 1))
  cs : e.ce.toNat < L → e.cs.toNat = k % (S + 1)

/-- The tick of the key-reset starts the free run (R182). -/
theorem Envg.freeRunning_of_keyReset (cmp : StrideCompare) {e : Envg} (h : e.ectrl.getLsbD 0 = true) :
    (e.update cmp).FreeRunning cmp (e.countTo cmp) e.stopAt 0 := by
  rw [Envg.update_of_keyReset cmp h]
  refine ⟨dropKeyReset_bit_zero e.ectrl, rfl, ?_, by simp, by simp⟩
  have hk : (e.ectrl &&& 0xFE).getLsbD 1 = e.ectrl.getLsbD 1 := dropKeyReset_bit_one e.ectrl
  simp only [Envg.stopAt, hk]

/-- Counting on within an entry. -/
theorem div_mod_succ_of_lt {k m : Nat} (h : k % m + 1 < m) : (k + 1) / m = k / m ∧ (k + 1) % m = k % m + 1 := by
  rw [Nat.div_mod_unique (by omega)]
  have := Nat.div_add_mod k m
  exact ⟨by omega, h⟩

/-- Counting on to the next entry. -/
theorem div_mod_succ_of_eq {k m : Nat} (h : k % m + 1 = m) : (k + 1) / m = k / m + 1 ∧ (k + 1) % m = 0 := by
  rw [Nat.div_mod_unique (by omega)]
  have := Nat.div_add_mod k m
  exact ⟨by rw [Nat.mul_succ]; omega, by omega⟩

/-- No update changes the stride it counts to (R230). -/
theorem Envg.update_countTo (cmp : StrideCompare) (e : Envg) : (e.update cmp).countTo cmp = e.countTo cmp := by
  obtain ⟨-, -, hstride, -⟩ := Envg.update_frame cmp e
  rw [Envg.countTo, Envg.countTo, hstride]

/-- No update changes where the cursor stops (R182, R230). -/
theorem Envg.update_stopAt (cmp : StrideCompare) (e : Envg) : (e.update cmp).stopAt = e.stopAt := by
  obtain ⟨-, hhold, -, -⟩ := Envg.update_frame cmp e
  rw [Envg.stopAt, Envg.stopAt, hhold, Envg.update_ectrl, dropKeyReset_bit_one]

/-- The stride count runs exactly while it is below the stride it counts to (R183). -/
theorem Envg.lt_countTo_iff (cmp : StrideCompare) (e : Envg) :
    e.cs.toNat < e.countTo cmp ↔ cmp = .configured ∧ e.cs.toNat < e.stride.toNat := by
  unfold Envg.countTo
  split_ifs with h <;> simp [h]

theorem Envg.countTo_lt (cmp : StrideCompare) (e : Envg) : e.countTo cmp < 256 := by
  have h := e.stride.isLt
  unfold Envg.countTo
  split_ifs <;> omega

theorem Envg.stopAt_le (e : Envg) : e.stopAt ≤ 127 := by
  unfold Envg.stopAt
  split_ifs <;> omega

/-- Before the stop the cursor advances when the count is over (R183, R184). -/
theorem Envg.step_of_lt_stopAt {cmp : StrideCompare} {e : Envg} (hw : ¬ e.cs.toNat < e.countTo cmp)
    (h : e.ce.toNat < e.stopAt) : e.step cmp = { e with ce := BitVec.ofNat 7 (e.ce.toNat + 1), cs := 0 } := by
  have hle := e.stopAt_le
  rw [Envg.step_of_advance (mt (Envg.lt_countTo_iff cmp e).mpr hw), if_pos (by omega)]
  rintro ⟨hk, hh⟩
  rw [Envg.stopAt, if_pos hk] at h
  omega

/-- At the stop the cursor stays (R183, R184, R190). -/
theorem Envg.step_ce_of_eq_stopAt (cmp : StrideCompare) {e : Envg} (h : e.ce.toNat = e.stopAt) :
    (e.step cmp).ce = e.ce := by
  by_cases hw : cmp = .configured ∧ e.cs.toNat < e.stride.toNat
  · rw [Envg.step_of_within hw]
  by_cases hh : e.ectrl.getLsbD 1 = true ∧ e.ce.toNat = e.hold.toNat
  · rw [Envg.step_of_held hw hh]
  have hce := e.ce.isLt
  have hlast : ¬ e.ce.toNat < 127 := fun hlt => hh <| by
    unfold Envg.stopAt at h
    split_ifs at h with hk
    · exact ⟨hk, by omega⟩
    · omega
  rw [Envg.step_of_advance hw hh, if_neg hlast]

/-- A step on the way: the count runs, the cursor goes one entry further, or it has stopped (R183, R184). -/
theorem Envg.FreeRunning.step {cmp : StrideCompare} {S L k : Nat} {e : Envg} (h : e.FreeRunning cmp S L k) :
    (e.step cmp).ce.toNat = min L ((k + 1) / (S + 1)) ∧
      ((e.step cmp).ce.toNat < L → (e.step cmp).cs.toNat = (k + 1) % (S + 1)) := by
  obtain ⟨-, rfl, rfl, hce, hcs⟩ := h
  have hmod : k % (e.countTo cmp + 1) < e.countTo cmp + 1 := Nat.mod_lt k (Nat.succ_pos _)
  by_cases hlt : e.ce.toNat < e.stopAt
  · have hcs := hcs hlt
    by_cases hw : e.cs.toNat < e.countTo cmp
    · obtain ⟨hq, hr⟩ := div_mod_succ_of_lt (k := k) (m := e.countTo cmp + 1) (by omega)
      have hS := e.countTo_lt cmp
      rw [Envg.step_of_within ((Envg.lt_countTo_iff cmp e).mp hw), hq, hr]
      refine ⟨hce, fun _ => ?_⟩
      rw [BitVec.toNat_ofNat]
      omega
    · obtain ⟨hq, hr⟩ := div_mod_succ_of_eq (k := k) (m := e.countTo cmp + 1) (by omega)
      have hbits := e.ce.isLt
      have hle := e.stopAt_le
      rw [Envg.step_of_lt_stopAt hw hlt, hq, hr]
      refine ⟨?_, fun _ => rfl⟩
      rw [BitVec.toNat_ofNat]
      omega
  · have hq : k / (e.countTo cmp + 1) ≤ (k + 1) / (e.countTo cmp + 1) := Nat.div_le_div_right (Nat.le_succ k)
    have hstop : e.ce.toNat = e.stopAt := by omega
    rw [Envg.step_ce_of_eq_stopAt cmp hstop]
    exact ⟨by omega, fun h => absurd h hlt⟩

/-- So does an update, which is the step where no key-reset is pending (R181). -/
theorem Envg.FreeRunning.update {cmp : StrideCompare} {S L k : Nat} {e : Envg} (h : e.FreeRunning cmp S L k) :
    (e.update cmp).FreeRunning cmp S L (k + 1) := by
  have hu := Envg.update_of_no_keyReset cmp h.no_keyReset
  obtain ⟨hce, hcs⟩ := h.step
  exact ⟨by rw [Envg.update_ectrl, dropKeyReset_bit_zero], (e.update_countTo cmp).trans h.countTo,
    (e.update_stopAt cmp).trans h.stopAt, by rw [hu]; exact hce, by rw [hu]; exact hcs⟩

theorem Envg.FreeRunning.update_iterate {cmp : StrideCompare} {S L k : Nat} {e : Envg} (h : e.FreeRunning cmp S L k)
    (n : Nat) : ((Envg.update cmp)^[n] e).FreeRunning cmp S L (k + n) := by
  induction n with
  | zero => exact h
  | succ n ih =>
    rw [Function.iterate_succ_apply']
    exact ih.update

/-- Settles O33: the first tick resets the generator, and the `n` after it run free. -/
theorem freeRunningEnvelopeTiming : Obligations.FreeRunningEnvelopeTiming := by
  intro s g n h _ href h0 stride last
  refine ⟨_, runAll_render (n + 1) h, ?_⟩
  have hrun := (Envg.freeRunning_of_keyReset s.cfg.strideCompare h0).update_iterate n
  rw [State.ticked_iterate_chip, Chip.tick_iterate_envgs s.cfg (n + 1) href, Function.iterate_succ_apply, hrun.ce,
    Nat.zero_add]
  rfl

end Sys2Proof.Machine

/-! SUPPORT. What a TICK leaves in the channels and in the registers: the statements of 46_channel_render.md and
47_render_sequencer.md about its frame, its cursors, its coefficients and what it never writes. -/

namespace Sys2Proof.Machine

/-! ## What a tick never writes -/

/-- The parameters of a channel that no tick writes (R230). -/
theorem Chip.tick_channels_frame (cfg : Config) (c : Chip) (i : Fin 8) :
    let t := (c.tick cfg).2.channels[i]
    let h := c.channels[i]
    t.voll = h.voll ∧ t.volr = h.volr ∧ t.accmax = h.accmax ∧ t.ampsel = h.ampsel ∧ t.coefsel = h.coefsel ∧
      t.lstart = h.lstart ∧ t.lend = h.lend := by
  rw [Fin.getElem_fin, Chip.tick_channels]
  obtain ⟨l1, l2, l3, l4, l5, l6, l7⟩ := Channel.side_frame cfg c.ram (c.beginTick cfg).envgs .left c.channels[i.val]
  obtain ⟨r1, r2, r3, r4, r5, r6, r7⟩ := Channel.side_frame cfg c.ram (c.beginTick cfg).envgs .right
    (c.channels[i.val].side cfg c.ram (c.beginTick cfg).envgs .left).2
  exact ⟨r1.trans l1, r2.trans l2, r3.trans l3, r4.trans l4, r5.trans l5, r6.trans l6, r7.trans l7⟩

/-- The parameters of a generator that no tick writes, `ECTRL` bits 7..1 among them (R182, R230). -/
theorem Chip.tick_envgs_frame (cfg : Config) (c : Chip) (g : Fin 16) :
    let t := (c.tick cfg).2.envgs[g]
    let e := c.envgs[g]
    t.mult = e.mult ∧ t.hold = e.hold ∧ t.stride = e.stride ∧ t.ent = e.ent ∧ t.ectrl >>> 1 = e.ectrl >>> 1 := by
  have hdrop : ∀ v : Byte, dropKeyReset v >>> 1 = v >>> 1 := by decide
  obtain ⟨hmult, hhold, hstride, hent⟩ := Envg.update_frame cfg.strideCompare c.envgs[g]
  exact Chip.tick_envgs_keeps (P := fun t => t.mult = c.envgs[g].mult ∧ t.hold = c.envgs[g].hold ∧
      t.stride = c.envgs[g].stride ∧ t.ent = c.envgs[g].ent ∧ t.ectrl >>> 1 = c.envgs[g].ectrl >>> 1)
    ⟨hmult, hhold, hstride, hent, by rw [Envg.update_ectrl, hdrop]⟩ ⟨rfl, rfl, rfl, rfl, rfl⟩

/-- Settles O39: the frames of a tick over the registers, the generators and the channels. -/
theorem tickNeverWritesHostState : Obligations.TickNeverWritesHostState :=
  fun s h => ⟨s.ticked, _, _, exec_tick h, rfl, Chip.tick_chsel _ _, Chip.tick_envsel _ _, Chip.tick_wptr _ _,
    Chip.tick_wdata _ _, Chip.tick_ram _ _, Chip.tick_envgs_frame s.cfg s.chip, Chip.tick_channels_frame s.cfg s.chip⟩

/-! ## Triggers after a tick -/

/-- Both passes clear the channel's control byte (R211, R221). -/
theorem Chip.tick_cctrl (cfg : Config) (c : Chip) (i : Fin 8) : (c.tick cfg).2.channels[i].cctrl = 0 := by
  rw [Fin.getElem_fin, Chip.tick_channels, Channel.side_cctrl]

/-- Settles O40: both passes clear `CCTRL`, an update clears the mark and, where it runs, the key-reset. -/
theorem afterTickTriggersAreClear : Obligations.AfterTickTriggersAreClear := by
  intro s h
  refine ⟨s.ticked, exec_tick h, Chip.tick_control _ _, Chip.tick_cctrl s.cfg s.chip, fun g => ?_, fun g hr => ?_⟩
  · exact Chip.tick_envgs_keeps (P := fun t => t.sq = false) (Envg.update_sq _ _) rfl
  · rw [State.ticked_chip, Chip.tick_envgs_of_references s.cfg hr, Envg.update_ectrl, dropKeyReset_bit_zero]

/-! ## The playback cursor -/

theorem Chip.tick_rptr (cfg : Config) (c : Chip) (i : Fin 8) :
    (c.tick cfg).2.channels[i].rptr =
      if c.channels[i].acc = 0 then c.channels[i].cursorCheck.rptr + 1 else c.channels[i].cursorCheck.rptr := by
  rw [Fin.getElem_fin, (c.tick_cursor cfg i.val i.isLt).1, Channel.advancePlayback_eq]
  rfl

theorem Chip.tick_acc (cfg : Config) (c : Chip) (i : Fin 8) :
    (c.tick cfg).2.channels[i].acc =
      if c.channels[i].acc = 0 then c.channels[i].accmax else c.channels[i].acc - 1 := by
  rw [Fin.getElem_fin, (c.tick_cursor cfg i.val i.isLt).2, Channel.advancePlayback_eq]
  rfl

/-- A counter that has not run out counts down by one. -/
theorem toNat_sub_one {x : Half} (h : x ≠ 0) : (x - 1).toNat = x.toNat - 1 := by
  bv_omega

/-- Settles O41: a tick is one check and then one advance of each cursor. -/
theorem tickMovesThePlaybackCursor : Obligations.TickMovesThePlaybackCursor := by
  intro s h
  refine ⟨s.ticked, exec_tick h, fun c => ?_⟩
  intro x start
  have hstart : x.cursorCheck.rptr.toNat = start := x.cursorCheck_rptr
  rw [State.ticked_chip, Chip.tick_rptr, Chip.tick_acc]
  refine ⟨fun h0 => ⟨?_, if_pos h0⟩, fun h0 => ⟨?_, ?_⟩⟩
  · rw [if_pos h0, BitVec.toNat_add, hstart]
    rfl
  · rw [if_neg h0, hstart]
  · rw [if_neg h0, toNat_sub_one h0]

/-- A channel whose rate counter runs out in `k` ticks while its cursor stands at `r`, inside the loop (R43, R213). -/
structure Channel.Waiting (r k : Nat) (h : Channel) : Prop where
  no_keyReset : h.cctrl.getLsbD 0 = false
  rptr : h.rptr.toNat = r
  inside : r ≤ h.lend.toNat
  acc : h.acc.toNat = k

/-- Inside the loop and without a key-reset the check leaves the cursor (R211). -/
theorem Channel.cursorCheck_rptr_of_inside {h : Channel} (h0 : h.cctrl.getLsbD 0 = false)
    (hin : h.rptr.toNat ≤ h.lend.toNat) : h.cursorCheck.rptr.toNat = h.rptr.toNat := by
  rw [Channel.cursorCheck_rptr, if_neg]
  rw [h0]
  simpa using hin

/-- While the counter runs, a tick counts it down and leaves the cursor (R213). -/
theorem Channel.Waiting.tick {cfg : Config} {c : Chip} {i : Fin 8} {r k : Nat} (h : c.channels[i].Waiting r (k + 1)) :
    (c.tick cfg).2.channels[i].Waiting r k := by
  obtain ⟨-, -, -, -, -, -, hlend⟩ := c.tick_channels_frame cfg i
  have h0 : c.channels[i].acc ≠ 0 := fun he =>
    Nat.succ_ne_zero k (h.acc.symm.trans (by rw [he]; rfl))
  refine ⟨by rw [Chip.tick_cctrl]; rfl, ?_, by rw [hlend]; exact h.inside, ?_⟩
  · rw [Chip.tick_rptr, if_neg h0, Channel.cursorCheck_rptr_of_inside h.no_keyReset (by rw [h.rptr]; exact h.inside),
      h.rptr]
  · rw [Chip.tick_acc, if_neg h0, toNat_sub_one h0, h.acc]
    rfl

/-- After `k` ticks the counter has run out. -/
theorem State.ticked_iterate_waiting {s : State} {i : Fin 8} {r k : Nat} (h : s.chip.channels[i].Waiting r k) :
    (State.ticked^[k] s).chip.channels[i].Waiting r 0 := by
  induction k generalizing s with
  | zero => exact h
  | succ k ih => exact ih (s := s.ticked) h.tick

/-- Settles O43: the first tick advances the cursor and starts the counter, and `ACCMAX` ticks more run it out. -/
theorem cursorPeriodIsAccmaxPlusOne : Obligations.CursorPeriodIsAccmaxPlusOne := by
  intro s c h h0 hkey hin hlt
  obtain ⟨-, -, -, -, -, -, hlend⟩ := s.chip.tick_channels_frame s.cfg c
  have hfirst : s.ticked.chip.channels[c].Waiting (s.chip.channels[c].rptr.toNat + 1)
      s.chip.channels[c].accmax.toNat := by
    refine ⟨by rw [State.ticked_chip, Chip.tick_cctrl]; rfl, ?_, by rw [State.ticked_chip, hlend]; exact hin, ?_⟩
    · rw [State.ticked_chip, Chip.tick_rptr, if_pos h0, BitVec.toNat_add,
        Channel.cursorCheck_rptr_of_inside hkey (by omega)]
      exact Nat.mod_eq_of_lt (Nat.succ_lt_succ hlt)
    · rw [State.ticked_chip, Chip.tick_acc, if_pos h0]
  have hlast := State.ticked_iterate_waiting hfirst
  exact ⟨_, runAll_render _ h, BitVec.eq_of_toNat_eq hlast.acc, hlast.rptr⟩

/-! ## Coefficients -/

/-- A coefficient depends on the selector that drives it only (R216). -/
theorem Channel.coefFrom_congr {x y : Channel} (h : x.coefsel = y.coefsel) (envgs : Vector Envg 16) :
    x.coefFrom envgs = y.coefFrom envgs := by
  funext k
  rw [Channel.coefFrom, Channel.coefFrom, h]

/-- The coefficient that selector `k` drives is the linear output of the generator it points at (R186, R216). -/
theorem Channel.toInt_coefFrom (envgs : Vector Envg 16) (h : Channel) (k : Fin 10) :
    (h.coefFrom envgs k).toInt = (selected envgs h.coefsel[k]).lin :=
  Envg.toInt_ofInt_lin _

/-- The coefficients a tick leaves (R216, R218). -/
theorem Chip.tick_coef (cfg : Config) (c : Chip) (i : Fin 8) :
    let t := (c.tick cfg).2.channels[i]
    let coef := t.coefFrom (c.tick cfg).2.envgs
    t.stage0.coef = ⟨coef 0, coef 1, coef 2, coef 3, coef 4⟩ ∧
      t.stage1.coef = ⟨coef 5, coef 6, coef 7, coef 8, coef 9⟩ := by
  intro t coef
  have ht : t = ((c.channels[i].side cfg c.ram (c.beginTick cfg).envgs .left).2.side cfg c.ram (c.beginTick cfg).envgs
      .right).2 := c.tick_channels cfg i.val i.isLt
  obtain ⟨-, -, -, -, hsel, -, -⟩ := Channel.side_frame cfg c.ram (c.beginTick cfg).envgs .right
    (c.channels[i].side cfg c.ram (c.beginTick cfg).envgs .left).2
  have hcoef : coef = Channel.coefFrom (c.beginTick cfg).envgs
      (c.channels[i].side cfg c.ram (c.beginTick cfg).envgs .left).2 :=
    Channel.coefFrom_congr ((congrArg Channel.coefsel ht).trans hsel) _
  rw [hcoef, ht]
  exact Channel.side_coef _ _ _ _ _

/-- Settles O44: each coefficient register holds its linear output exactly. -/
theorem tickLoadsAllTenCoefficients : Obligations.TickLoadsAllTenCoefficients := by
  intro s h
  refine ⟨s.ticked, exec_tick h, fun c => ?_⟩
  intro x out
  obtain ⟨h0, h1⟩ := s.chip.tick_coef s.cfg c
  have key : ∀ k, (x.coefFrom s.ticked.chip.envgs k).toInt = out k := fun k => Channel.toInt_coefFrom _ _ k
  have e0 : x.stage0.coef = _ := h0
  have e1 : x.stage1.coef = _ := h1
  rw [e0, e1]
  exact ⟨key 0, key 1, key 2, key 3, key 4, key 5, key 6, key 7, key 8, key 9⟩

end Sys2Proof.Machine

/-! SUPPORT. The statements of 46_channel_render.md and 47_render_sequencer.md about the frame of a TICK: the per-channel
procedure, the range of a frame, silence, and what the right side cannot reach. -/

namespace Sys2Proof.Machine

/-! ## The per-channel procedure -/

/-- The mix of the outputs of a file of channels (R235). -/
theorem mix_mapAll (f : Channel → Int) (v : Vector Channel 8) :
    mix (mapAll f v) = (f v[(0 : Fin 8)] + f v[(1 : Fin 8)] + f v[(2 : Fin 8)] + f v[(3 : Fin 8)] + f v[(4 : Fin 8)] +
      f v[(5 : Fin 8)] + f v[(6 : Fin 8)] + f v[(7 : Fin 8)]) / 8 := by
  simp [mix, floorShift]

/-- The check, written out: the cursor as a number, and the control byte cleared (R211). -/
theorem Channel.cursorCheck_eq (h : Channel) :
    h.cursorCheck =
      { h with
        cctrl := 0
        rptr := BitVec.ofNat 15
          (if h.cctrl.getLsbD 0 = true ∨ h.lend.toNat < h.rptr.toNat then h.lstart.toNat % 32768
            else h.rptr.toNat) } := by
  rw [← Channel.cursorCheck_rptr, BitVec.ofNat_toNat, BitVec.setWidth_eq]
  rfl

section
variable (cfg : Config) (ram : Memory) (envgs : Vector Envg 16) (h : Channel)

/-- Stage 0 in the left pass (R214, R217). -/
def Channel.leftStage0 : Int × Stage :=
  (h.loadCoefficients envgs).stage0.filter cfg .left (h.cursorCheck.fetch ram * h.voll.toInt)

/-- Stage 1 in the left pass, fed with the output of stage 0 (R217). -/
def Channel.leftStage1 : Int × Stage :=
  (h.loadCoefficients envgs).stage1.filter cfg .left (h.leftStage0 cfg ram envgs).1

/-- Stage 0 in the right pass, on the stage that the left pass left (R222). -/
def Channel.rightStage0 : Int × Stage :=
  (h.leftStage0 cfg ram envgs).2.filter cfg .right (h.cursorCheck.fetch ram * h.volr.toInt)

/-- Stage 1 in the right pass (R222). -/
def Channel.rightStage1 : Int × Stage :=
  (h.leftStage1 cfg ram envgs).2.filter cfg .right (h.rightStage0 cfg ram envgs).1

/-- The left pass: the checked channel with its stages run once (R210, R222). -/
theorem Channel.side_left_eq :
    h.side cfg ram envgs .left =
      (h.amplify cfg envgs (h.leftStage1 cfg ram envgs).1,
        { h.cursorCheck with
          stage0 := (h.leftStage0 cfg ram envgs).2
          stage1 := (h.leftStage1 cfg ram envgs).2 }) := by
  rw [Channel.side]
  rfl

/-- A check after the left pass changes nothing more (R211, R222). -/
theorem Channel.cursorCheck_side_left :
    (h.side cfg ram envgs .left).2.cursorCheck = (h.side cfg ram envgs .left).2 := by
  have hc : ∀ (x : Channel) (a b : Stage),
      { x with stage0 := a, stage1 := b }.cursorCheck = { x.cursorCheck with stage0 := a, stage1 := b } :=
    fun _ _ _ => rfl
  rw [Channel.side_left_eq, hc, Channel.cursorCheck_twice]

/-- The right pass after the left one: the same sample through the stages that the left pass left, and the advance (R210,
R213, R222). -/
theorem Channel.side_right_eq :
    (h.side cfg ram envgs .left).2.side cfg ram envgs .right =
      (h.amplify cfg envgs (h.rightStage1 cfg ram envgs).1,
        { h.cursorCheck.advancePlayback with
          stage0 := (h.rightStage0 cfg ram envgs).2
          stage1 := (h.rightStage1 cfg ram envgs).2 }) := by
  rw [Channel.side, Channel.prepare, Channel.cursorCheck_side_left, Channel.side_left_eq]
  simp only [Channel.advancePlayback_eq]
  rfl

end

/-- A TICK, by the passes of its channels over the generators it leaves (R230, R234 to R236). -/
theorem exec_tick_passes {s : State} (h : s.life = .ready) :
    ∃ t, exec .tick s = .next t ∧
      t.observed = s.observed ++ [.frame
        (mix (mapAll (fun x => (x.side s.cfg s.chip.ram t.chip.envgs .left).1) s.chip.channels))
        (mix (mapAll (fun x => ((x.side s.cfg s.chip.ram t.chip.envgs .left).2.side s.cfg s.chip.ram t.chip.envgs
          .right).1) s.chip.channels))] ∧
      ∀ c : Fin 8, t.chip.channels[c] =
        ((s.chip.channels[c].side s.cfg s.chip.ram t.chip.envgs .left).2.side s.cfg s.chip.ram t.chip.envgs .right).2 :=
  ⟨s.ticked, exec_tick h, by rw [State.ticked_observed, Chip.tick_left, Chip.tick_right]; rfl,
    fun c => s.chip.tick_channels s.cfg c.val c.isLt⟩

/-- Settles O45: the left pass renders the checked channel, and the right pass renders what the left pass left. -/
theorem tickIsTheChannelProcedure : Obligations.TickIsTheChannelProcedure := by
  intro s h
  obtain ⟨t, hex, hobs, hchan⟩ := exec_tick_passes h
  rw [mix_mapAll, mix_mapAll] at hobs
  refine ⟨t, fun c => (s.chip.channels[c].side s.cfg s.chip.ram t.chip.envgs .left).1,
    fun c => ((s.chip.channels[c].side s.cfg s.chip.ram t.chip.envgs .left).2.side s.cfg s.chip.ram
      t.chip.envgs .right).1, hex, ?_, ?_⟩
  · exact hobs
  intro c x gen entry rptr s0 coef stage0 stage1 l0 l1 r0 r1 amp
  have hs0 : x.cursorCheck.fetch s.chip.ram = s0 := by
    rw [Channel.cursorCheck_eq, Channel.fetch]
  have hl0 : x.leftStage0 s.cfg s.chip.ram t.chip.envgs = l0 := by
    rw [Channel.leftStage0, hs0]
    rfl
  have hl1 : x.leftStage1 s.cfg s.chip.ram t.chip.envgs = l1 := by
    rw [Channel.leftStage1, hl0]
    rfl
  have hr0 : x.rightStage0 s.cfg s.chip.ram t.chip.envgs = r0 := by rw [Channel.rightStage0, hl0, hs0]
  have hr1 : x.rightStage1 s.cfg s.chip.ram t.chip.envgs = r1 := by rw [Channel.rightStage1, hl1, hr0]
  have hamp : ∀ y, x.amplify s.cfg t.chip.envgs y = y * amp / ((2 ^ s.cfg.ampShift : Nat) : Int) := fun y => by
    rw [Channel.amplify, floorShift, Envg.exp]
    rfl
  have hleft : (x.side s.cfg s.chip.ram t.chip.envgs .left).1 = l1.1 * amp / ((2 ^ s.cfg.ampShift : Nat) : Int) := by
    rw [← hl1, ← hamp, Channel.side_left_eq]
  have hright : ((x.side s.cfg s.chip.ram t.chip.envgs .left).2.side s.cfg s.chip.ram t.chip.envgs .right).1 =
      r1.1 * amp / ((2 ^ s.cfg.ampShift : Nat) : Int) := by
    rw [← hr1, ← hamp, Channel.side_right_eq]
  refine ⟨hleft, hright, ?_⟩
  rw [hchan, Channel.side_right_eq, Channel.advancePlayback_eq, Channel.cursorCheck_eq, ← hr0, ← hr1]

end Sys2Proof.Machine

/-! SUPPORT. The statements of 46_channel_render.md and 47_render_sequencer.md about all frames: their range, silence, what
the right side cannot reach, and the printed loops of a TICK. -/

namespace Sys2Proof.Machine

/-! ## The range of a frame -/

/-- A signed 16-bit output times an amplitude, descaled by 15 bits (R219, R220). -/
theorem descaled_bounds {y e : Int} (hy : -32767 ≤ y ∧ y ≤ 32767) (he : -32640 ≤ e ∧ e ≤ 32385) :
    -32640 ≤ floorShift (y * e) 15 ∧ floorShift (y * e) 15 ≤ 32639 := by
  obtain ⟨hy1, hy2⟩ := hy
  obtain ⟨he1, he2⟩ := he
  have h1 : -1069514880 ≤ y * e := by nlinarith
  have h2 : y * e ≤ 1069514880 := by nlinarith
  change -32640 ≤ y * e / 32768 ∧ y * e / 32768 ≤ 32639
  omega

/-- With `AMP_SHIFT` 15 every output of a pass lies in `-32640..32639` (R200, R220). -/
theorem Channel.side_bounds {cfg : Config} (hs : cfg.ampShift = 15) (ram : Memory) (envgs : Vector Envg 16) (d : Side)
    (h : Channel) : -32640 ≤ (h.side cfg ram envgs d).1 ∧ (h.side cfg ram envgs d).1 ≤ 32639 := by
  simp only [Channel.side, Channel.amplify, hs]
  exact descaled_bounds (clamp_bounds _ (by decide)) (Envg.exp_bounds cfg _)

/-- The mix of outputs in a range lies in that range (R235). -/
theorem mix_mapAll_bounds {lo hi : Int} {f : Channel → Int} (hf : ∀ h, lo ≤ f h ∧ f h ≤ hi) (v : Vector Channel 8) :
    lo ≤ mix (mapAll f v) ∧ mix (mapAll f v) ≤ hi := by
  have h0 := hf v[(0 : Fin 8)]; have h1 := hf v[(1 : Fin 8)]; have h2 := hf v[(2 : Fin 8)]
  have h3 := hf v[(3 : Fin 8)]; have h4 := hf v[(4 : Fin 8)]; have h5 := hf v[(5 : Fin 8)]
  have h6 := hf v[(6 : Fin 8)]; have h7 := hf v[(7 : Fin 8)]
  rw [mix_mapAll]
  omega

/-- Settles O46: both samples are mixes of outputs in the range. -/
theorem framesFitSixteenBits : Obligations.FramesFitSixteenBits := by
  intro s h hs
  obtain ⟨t, hex, hobs, -⟩ := exec_tick_passes h
  obtain ⟨hl1, hl2⟩ := mix_mapAll_bounds (fun x => Channel.side_bounds hs s.chip.ram t.chip.envgs .left x)
    s.chip.channels
  obtain ⟨hr1, hr2⟩ := mix_mapAll_bounds (fun x => Channel.side_bounds hs s.chip.ram t.chip.envgs .right
    (x.side s.cfg s.chip.ram t.chip.envgs .left).2) s.chip.channels
  exact ⟨t, _, _, hex, hobs, hl1, hl2, hr1, hr2⟩

/-! ## Silence -/

/-- With every `MULT` at 0 every output is 0 (R187, R219). -/
theorem Channel.side_eq_zero {envgs : Vector Envg 16} (hm : ∀ g : Fin 16, envgs[g].mult = 0) (cfg : Config)
    (ram : Memory) (d : Side) (h : Channel) : (h.side cfg ram envgs d).1 = 0 := by
  have hexp : (selected envgs h.ampsel).exp cfg = 0 := by
    rw [Envg.exp, show (selected envgs h.ampsel).mult = 0 from hm h.ampsel.toFin]
    exact zero_mul _
  simp only [Channel.side, Channel.amplify, hexp, mul_zero, floorShift_zero]

theorem mix_mapAll_eq_zero {f : Channel → Int} (hf : ∀ h, f h = 0) (v : Vector Channel 8) : mix (mapAll f v) = 0 := by
  rw [mix_mapAll]
  simp only [hf]
  rfl

/-- A tick while every `MULT` is 0 returns silence (R273). -/
theorem Chip.tick_silent {c : Chip} (hm : ∀ g : Fin 16, c.envgs[g].mult = 0) (cfg : Config) :
    (c.tick cfg).1 = (0, 0) := by
  have hm' : ∀ g : Fin 16, (c.beginTick cfg).envgs[g].mult = 0 := fun g => (c.tick_envgs_frame cfg g).1.trans (hm g)
  refine Prod.ext ?_ ?_
  · rw [Chip.tick_left, mix_mapAll_eq_zero fun h => Channel.side_eq_zero hm' _ _ _ h]
  · rw [Chip.tick_right, mix_mapAll_eq_zero fun h => Channel.side_eq_zero hm' _ _ _ _]

/-- Settles O47: a tick keeps every `MULT`, so each of the `n` frames is silent. -/
theorem silentUntilAMultiplierIsSet : Obligations.SilentUntilAMultiplierIsSet := by
  intro s n h hm
  have key : (∀ g : Fin 16, (State.ticked^[n] s).chip.envgs[g].mult = 0) ∧
      (State.ticked^[n] s).observed = s.observed ++ List.replicate n (.frame 0 0) := by
    induction n with
    | zero => exact ⟨hm, (List.append_nil _).symm⟩
    | succ n ih =>
      obtain ⟨hm', hobs⟩ := ih
      rw [Function.iterate_succ_apply']
      refine ⟨fun g => (Chip.tick_envgs_frame _ _ g).1.trans (hm' g), ?_⟩
      rw [State.ticked_observed, hobs, Chip.tick_silent hm', List.append_assoc, List.replicate_succ']
  exact ⟨_, runAll_render n h, key.2⟩

/-! ## The right side -/

/-- The chip after a tick, whole (R230). -/
theorem Chip.tick_eq (cfg : Config) (c : Chip) :
    (c.tick cfg).2 = { c with
      control := 0
      envgs := (c.beginTick cfg).envgs
      channels := mapAll (fun h => ((h.side cfg c.ram (c.beginTick cfg).envgs .left).2.side cfg c.ram
        (c.beginTick cfg).envgs .right).2) c.channels } := by
  simp only [Chip.tick, Chip.renderPass, Chip.setChannels_channels, Chip.setChannels_ram, Chip.setChannels_envgs,
    mapAll_mapAll]
  rfl

/-- The left output does not see what only the right side uses (R50). -/
theorem Channel.side_left_leftPart (cfg : Config) (ram : Memory) (envgs : Vector Envg 16) (h : Channel) :
    (h.leftPart.side cfg ram envgs .left).1 = (h.side cfg ram envgs .left).1 :=
  rfl

/-- A stage without its right delay line. -/
def Stage.clearRight (st : Stage) : Stage := { st with dr := ⟨0, 0⟩ }

theorem Channel.leftStage0_leftPart (cfg : Config) (ram : Memory) (envgs : Vector Envg 16) (h : Channel) :
    h.leftPart.leftStage0 cfg ram envgs =
      ((h.leftStage0 cfg ram envgs).1, (h.leftStage0 cfg ram envgs).2.clearRight) := by
  rw [Channel.leftStage0]
  rfl

theorem Channel.leftStage1_leftPart (cfg : Config) (ram : Memory) (envgs : Vector Envg 16) (h : Channel) :
    h.leftPart.leftStage1 cfg ram envgs =
      ((h.leftStage1 cfg ram envgs).1, (h.leftStage1 cfg ram envgs).2.clearRight) := by
  rw [Channel.leftStage1, Channel.leftStage0_leftPart]
  rfl

/-- The right pass reaches nothing but its own delay lines: besides them both passes leave what the left one leaves, and
the advance (R50). -/
theorem Channel.leftPart_passes (cfg : Config) (ram : Memory) (envgs : Vector Envg 16) (h : Channel) :
    ((h.side cfg ram envgs .left).2.side cfg ram envgs .right).2.leftPart =
      { h.cursorCheck.advancePlayback with
        volr := 0
        stage0 := (h.leftStage0 cfg ram envgs).2.clearRight
        stage1 := (h.leftStage1 cfg ram envgs).2.clearRight } := by
  rw [Channel.side_right_eq]
  rfl

/-- Both passes of a channel's left part leave the left part of what they leave of the channel (R50). -/
theorem Channel.passes_leftPart (cfg : Config) (ram : Memory) (envgs : Vector Envg 16) (h : Channel) :
    ((h.leftPart.side cfg ram envgs .left).2.side cfg ram envgs .right).2.leftPart =
      ((h.side cfg ram envgs .left).2.side cfg ram envgs .right).2.leftPart := by
  rw [Channel.leftPart_passes, Channel.leftPart_passes, Channel.leftStage0_leftPart, Channel.leftStage1_leftPart,
    Channel.advancePlayback_eq, Channel.advancePlayback_eq]
  rfl

/-- The generators after the start of a tick do not depend on what only the right side uses (R232). -/
theorem Chip.beginTick_leftPart (cfg : Config) (c : Chip) :
    (c.leftPart.beginTick cfg).envgs = (c.beginTick cfg).envgs := by
  have href : ∀ g, c.leftPart.referenced g = c.referenced g := fun g => by
    rw [Bool.eq_iff_iff, Chip.referenced_iff, Chip.referenced_iff]
    simp [Chip.References, Chip.leftPart, Channel.leftPart]
  ext1 g hg
  rw [Chip.beginTick_envgs, Chip.beginTick_envgs, href]
  rfl

@[simp] theorem Chip.leftPart_ram (c : Chip) : c.leftPart.ram = c.ram := rfl

@[simp] theorem Chip.leftPart_channels (c : Chip) : c.leftPart.channels = mapAll Channel.leftPart c.channels := rfl

/-- The left part of what a tick leaves (R50). -/
theorem Chip.leftPart_tick (cfg : Config) (c : Chip) :
    (c.tick cfg).2.leftPart = { c with
      control := 0
      envgs := (c.beginTick cfg).envgs
      channels := mapAll (fun h => ((h.side cfg c.ram (c.beginTick cfg).envgs .left).2.side cfg c.ram
        (c.beginTick cfg).envgs .right).2.leftPart) c.channels } := by
  rw [Chip.tick_eq, Chip.leftPart, Chip.setChannels, mapAll_mapAll]

/-- A tick of the left part of a chip gives the left sample and the left part of the chip's tick (R50). -/
theorem Chip.tick_leftPart (cfg : Config) (c : Chip) :
    (c.leftPart.tick cfg).1.1 = (c.tick cfg).1.1 ∧ (c.leftPart.tick cfg).2.leftPart = (c.tick cfg).2.leftPart := by
  constructor
  · rw [Chip.tick_left, Chip.tick_left, Chip.beginTick_leftPart, Chip.leftPart_channels, mapAll_mapAll]
    rfl
  · rw [Chip.leftPart_tick, Chip.leftPart_tick, Chip.beginTick_leftPart, Chip.leftPart_channels, Chip.leftPart_ram,
      mapAll_mapAll]
    simp only [Channel.passes_leftPart]
    rfl

/-- Settles O48: two chips with one left part give what the tick of that left part gives. -/
theorem rightSideNeverReachesTheLeft : Obligations.RightSideNeverReachesTheLeft := by
  intro s s' h h' hcfg hpart
  obtain ⟨hl, hp⟩ := s.chip.tick_leftPart s.cfg
  obtain ⟨hl', hp'⟩ := s'.chip.tick_leftPart s.cfg
  rw [← hpart] at hl' hp'
  refine ⟨s.ticked, s'.ticked, (s.chip.tick s.cfg).1.1, (s.chip.tick s.cfg).1.2, (s'.chip.tick s.cfg).1.2,
    exec_tick h, exec_tick h', s.ticked_observed, ?_, ?_⟩
  · rw [State.ticked_observed, ← hcfg, ← hl, hl']
  · rw [State.ticked_chip, State.ticked_chip, ← hcfg, ← hp, hp']

/-! ## The printed loops -/

/-- A loop that replaces the generator file step by step replaces it once by the loop's result. -/
theorem foldl_setEnvgs {β : Type} (F : Vector Envg 16 → β → Vector Envg 16) (l : List β) (c : Chip) :
    l.foldl (fun c b => c.setEnvgs (F c.envgs b)) c = c.setEnvgs (l.foldl F c.envgs) := by
  induction l generalizing c with
  | nil => rfl
  | cons b l ih => exact ih _

/-- R230's loop over the generators is the update taken side by side (log 17). -/
theorem Chip.updateLoop_eq (cmp : StrideCompare) (c : Chip) : c.updateLoop cmp = c.updateMarked cmp := by
  have hstep : ∀ (c : Chip) (g : Fin 16),
      (if c.envgs[g].sq then c.setEnvgs (c.envgs.set g (c.envgs[g].update cmp)) else c) =
        c.setEnvgs (c.envgs.set g (if c.envgs[g].sq then c.envgs[g].update cmp else c.envgs[g])) := fun c g => by
    rw [← ite_set_eq_set_ite (c.envgs[g].sq = true) (Envg.update cmp)]
    split_ifs <;> rfl
  simp only [Chip.updateLoop, hstep]
  rw [foldl_setEnvgs fun (v : Vector Envg 16) (g : Fin 16) => v.set g (if v[g].sq then v[g].update cmp else v[g]),
    foldl_set_all fun (_ : Fin 16) (e : Envg) => if e.sq then e.update cmp else e]
  rfl

/-- A generator marked if `b`, its mark left as it is otherwise (R232). -/
def Envg.markIf (b : Bool) (e : Envg) : Envg := { e with sq := b || e.sq }

theorem Envg.markIf_markIf (a b : Bool) (e : Envg) : (e.markIf a).markIf b = e.markIf (a || b) := by
  cases a <;> cases b <;> rfl

/-- Some selector of the list points at generator `g`. -/
def names (l : List EnvgIx) (g : Fin 16) : Bool := l.any fun sel => decide (sel.toNat = g.val)

/-- The marks of the generators that a list of selectors names. -/
def Chip.mark (l : List EnvgIx) (c : Chip) : Chip :=
  c.setEnvgs (Vector.ofFn fun g => c.envgs[g].markIf (names l g))

theorem Chip.mark_envgs (l : List EnvgIx) (c : Chip) (g : Fin 16) :
    (c.mark l).envgs[g] = c.envgs[g].markIf (names l g) :=
  Vector.getElem_ofFn g.isLt

theorem Chip.mark_nil (c : Chip) : c.mark [] = c := by
  have h : (Vector.ofFn fun g : Fin 16 => c.envgs[g]) = c.envgs := by
    ext1 g hg
    simp
  exact congrArg (Chip.setEnvgs · c) h

/-- One selector's mark. -/
theorem Chip.mark_single (sel : EnvgIx) (c : Chip) :
    c.mark [sel] = c.setEnvgs (c.envgs.set sel.toNat { selected c.envgs sel with sq := true } sel.isLt) := by
  refine congrArg (Chip.setEnvgs · c) ?_
  ext1 g hg
  rw [Vector.getElem_ofFn, Vector.getElem_set]
  by_cases h : sel.toNat = g
  · subst h
    simp [selected, names, Envg.markIf]
  · simp [h, names, Envg.markIf]

/-- Marks after marks. -/
theorem Chip.mark_append (l l' : List EnvgIx) (c : Chip) : c.mark (l ++ l') = (c.mark l).mark l' := by
  have h : ∀ g : Fin 16, c.envgs[g].markIf (names (l ++ l') g) = (c.mark l).envgs[g].markIf (names l' g) := fun g => by
    rw [Chip.mark_envgs, Envg.markIf_markIf, names, List.any_append, names, names]
  rw [Chip.mark, funext h]
  rfl

/-- A loop over selectors marks what they name. -/
theorem Chip.foldl_mark (l : List EnvgIx) (c : Chip) :
    l.foldl (fun c sel => c.setEnvgs (c.envgs.set sel.toNat { selected c.envgs sel with sq := true } sel.isLt)) c =
      c.mark l := by
  induction l generalizing c with
  | nil => exact c.mark_nil.symm
  | cons sel l ih => rw [List.foldl_cons, ih, ← Chip.mark_single, ← Chip.mark_append, List.singleton_append]

/-- A loop over channels marks what their selectors name; it changes no selector. -/
theorem Chip.foldl_mark_references (l : List (Fin 8)) (c : Chip) :
    l.foldl (fun c i => c.mark c.channels[i].references) c = c.mark (l.flatMap fun i => c.channels[i].references) := by
  induction l generalizing c with
  | nil => exact c.mark_nil.symm
  | cons i l ih => rw [List.foldl_cons, ih, List.flatMap_cons, Chip.mark_append]; rfl

/-- A file has an entry with a property exactly when the loop over its numbers finds one. -/
theorem any_finRange {α : Type} {n : Nat} (p : α → Bool) (v : Vector α n) :
    ((List.finRange n).any fun i => p v[i]) = v.toList.any p := by
  rw [Bool.eq_iff_iff, List.any_eq_true, List.any_eq_true]
  simp [Vector.mem_iff_getElem, Fin.exists_iff]

/-- R232's loop over all references is the marking taken side by side (log 17). -/
theorem Chip.markLoop_eq (c : Chip) : c.markLoop = c.markReferenced := by
  have href : ∀ g : Fin 16, names ((List.finRange 8).flatMap fun i => c.channels[i].references) g = c.referenced g :=
    fun g => by
    rw [names, List.any_flatMap]
    exact any_finRange (fun h : Channel => h.references.any fun sel => decide (sel.toNat = g.val)) c.channels
  simp only [Chip.markLoop, Chip.foldl_mark]
  rw [Chip.foldl_mark_references, Chip.mark, Chip.markReferenced]
  simp only [href]
  rfl

/-- The loop over the channels of one pass: each is rendered as it stood before the loop, since the others leave it, the
RAM and the generators alone. -/
theorem Chip.foldl_side (cfg : Config) (d : Side) (l : List (Fin 8)) (hl : l.Nodup) (out : Vector Int 8) (c : Chip) :
    l.foldl (fun (p : Vector Int 8 × Chip) (i : Fin 8) =>
        (p.1.set i (p.2.channels[i].side cfg p.2.ram p.2.envgs d).1,
          p.2.setChannels (p.2.channels.set i (p.2.channels[i].side cfg p.2.ram p.2.envgs d).2))) (out, c) =
      (l.foldl (fun v (i : Fin 8) => v.set i (c.channels[i].side cfg c.ram c.envgs d).1) out,
        c.setChannels (l.foldl (fun v (i : Fin 8) => v.set i (v[i].side cfg c.ram c.envgs d).2) c.channels)) := by
  induction l generalizing out c with
  | nil => rfl
  | cons k l ih =>
    obtain ⟨hk, hl⟩ := List.nodup_cons.mp hl
    rw [List.foldl_cons, ih hl]
    refine Prod.ext ?_ rfl
    refine List.foldl_ext _ _ _ fun v i hi => ?_
    have hne : (c.channels.set k (c.channels[k].side cfg c.ram c.envgs d).2)[i] = c.channels[i] := by
      rw [Fin.getElem_fin, Vector.getElem_set_ne]
      · rfl
      · exact fun h => hk (Fin.ext h ▸ hi)
    simp only [Chip.setChannels_channels, Chip.setChannels_ram, Chip.setChannels_envgs, hne]

/-- R230's loop over the channels is the pass taken side by side, and its mix (log 17). -/
theorem Chip.sideLoop_eq (cfg : Config) (d : Side) (c : Chip) :
    (mix (c.sideLoop cfg d).1, (c.sideLoop cfg d).2) = c.renderPass cfg d := by
  have h := Chip.foldl_side cfg d (List.finRange 8) (List.nodup_finRange 8) (Vector.replicate 8 0) c
  rw [foldl_set_all fun (_ : Fin 8) (x : Channel) => (x.side cfg c.ram c.envgs d).2,
    foldl_set_all fun (i : Fin 8) (_ : Int) => (c.channels[i].side cfg c.ram c.envgs d).1] at h
  have hloop : c.sideLoop cfg d = _ := h
  rw [hloop, Chip.renderPass, mapAll_mapAll, mapAll_mapAll]
  rfl

/-- The printed loops are the tick (R230, log 17). -/
theorem Chip.tickLoop_eq (cfg : Config) (c : Chip) : c.tickLoop cfg = c.tick cfg := by
  have hmix : ∀ d (c : Chip), mix (c.sideLoop cfg d).1 = (c.renderPass cfg d).1 :=
    fun d c => congrArg Prod.fst (c.sideLoop_eq cfg d)
  have hchip : ∀ d (c : Chip), (c.sideLoop cfg d).2 = (c.renderPass cfg d).2 :=
    fun d c => congrArg Prod.snd (c.sideLoop_eq cfg d)
  simp only [Chip.tickLoop, Chip.markLoop_eq, Chip.updateLoop_eq, hmix, hchip]
  rfl

/-- Settles O38: the printed loops give the chip and the frame of the model's tick. -/
theorem tickIsItsFivePhases : Obligations.TickIsItsFivePhases := by
  intro s h
  rw [exec_tick h, Chip.tickLoop_eq]
  rfl

end Sys2Proof.Machine
